-- ==== Sys2Proof/Word.lean ====
section
/-!
DEFINITION. The value types that cross the core's boundary or sit in its registers: bytes, and the bit patterns of
IEEE 754 binary64 and binary32 values (00_scope.md R6, R11). The two float types are structures around a bit vector,
so that a floating-point sum can never be mistaken for a sum of bit patterns.
-/

namespace Sys2Proof

/-- `u8` of R11: an event byte, a note number, a command tag. -/
abbrev Byte := BitVec 8

/-- `b64` of R11: an IEEE 754 binary64 value, held as its bit pattern (bit 63 is the sign). -/
structure B64 where
  bits : BitVec 64
  deriving DecidableEq, Repr, Inhabited

/-- `b32` of R11: an IEEE 754 binary32 value, held as its bit pattern (R64: bit 31 sign, 30:23 exponent, 22:0 fraction). -/
structure B32 where
  bits : BitVec 32
  deriving DecidableEq, Repr, Inhabited

end Sys2Proof
end

