-- ==== Sys2Proof/Syntax.lean ====
section
/-!
DEFINITION. What the core executes: one constructor of `Instr` for each row of spec/opcode_table.json (30_encoding.md
R68), the transactions that carry them to the core (`Packet`), and the assembler abbreviations of R67.
-/

namespace Sys2Proof

/-- A 3-byte event message `[status, data1, data2]` in stream order (R60). -/
structure Event where
  status : Byte
  data1 : Byte
  data2 : Byte
  deriving DecidableEq, Repr, Inhabited

/-- What an event message selects (R61). -/
inductive EventKind
  | noteOff
  | noteOn
  | ignored
  deriving DecidableEq, Repr

/-- The operations of R68. The first three are host commands, the next three events, the rest internal operations.
Velocity and the bytes of an ignored message are kept, so that no bit of an encoding is dropped. -/
inductive Instr
  /-- SET_SAMPLE_RATE (R160). -/
  | setSampleRate (rate : B32)
  /-- HANDLE_EVENTS (R161). -/
  | handleEvents (events : List Event)
  /-- RENDER (R140); its third operand, OUT, is the buffer held in `Machine.State`. -/
  | render (numSamples numChannels : Nat)
  /-- NOTE_OFF (R122). -/
  | noteOff (note velocity : Byte)
  /-- NOTE_ON (R121). -/
  | noteOn (note velocity : Byte)
  /-- IGNORED (R123). -/
  | ignored (status data1 data2 : Byte)
  /-- PITCH_TO_FREQ (R80). -/
  | pitchToFreq (pitch : Byte)
  /-- CHANGE_FREQUENCY (R93). -/
  | changeFrequency (freq : B64)
  /-- NEXT_SAMPLE (R94). -/
  | nextSample
  /-- NEXT_SAMPLE_SINE (R95). -/
  | nextSampleSine
  /-- NEXT_SAMPLE_SAW (R97). -/
  | nextSampleSaw
  /-- HARMONIC_COUNT (R96). -/
  | harmonicCount
  /-- PHASE_ADVANCE (R92). -/
  | phaseAdvance
  deriving DecidableEq, Repr

/-- The rows of R68 that no host encoding selects. -/
inductive InternalOp
  | pitchToFreq
  | changeFrequency
  | nextSample
  | nextSampleSine
  | nextSampleSaw
  | harmonicCount
  | phaseAdvance
  deriving DecidableEq, Repr

/-- One transaction delivered to the core. The core exchanges values, not bytes (R43), so operands are naturals.
Only `command` is the host's (R63). `event` is one message delivered as a transaction of its own, the `ev` of R67;
`invoke` runs an internal operation as a step of its own, which no host can ask for (log entry 8). -/
inductive Packet
  /-- A command tag and its operand values in the order of R63: the rate's 32 bits; or L and then the 3·L message
  bytes; or `num_samples` and `num_channels`. -/
  | command (tag : Byte) (operands : List Nat)
  /-- The three bytes of one event message (R60). -/
  | event (status data1 data2 : Byte)
  /-- An internal operation with its operand values. -/
  | invoke (op : InternalOp) (operands : List Nat)
  deriving DecidableEq, Repr

/-- The packet is a command, the only thing a host can issue (R63, R68). -/
def Packet.isCommand : Packet → Bool
  | .command _ _ => true
  | .event _ _ _ => false
  | .invoke _ _ => false

/-- A message as the assembler writes it (R67); the velocity of `noteon` and `noteoff` may be left out. -/
inductive AsmMsg
  | msg (status data1 data2 : Byte)
  | noteon (note : Byte) (velocity : Option Byte)
  | noteoff (note : Byte) (velocity : Option Byte)
  deriving DecidableEq, Repr

/-- A line of assembler (R67); `ev` and `block` are pseudo-instructions. -/
inductive Asm
  | srate (rate : B32)
  | events (msgs : List AsmMsg)
  | render (numSamples numChannels : Nat)
  | ev (msg : AsmMsg)
  | block (msgs : List AsmMsg) (numSamples numChannels : Nat)
  deriving DecidableEq, Repr

end Sys2Proof
end

