-- ==== Sys2Proof/WellFormed.lean ====
section
/-!
DEFINITION. Which terms of `Instr` stand for an operation the spec's tables can select.
-/

namespace Sys2Proof

/-- An IGNORED message is one whose status byte is neither 0x80 nor 0x90 (R61, R123). Every other
operand takes every value of its type (R62, R64, R65, R80). -/
def Instr.wellFormed : Instr → Bool
  | .setSampleRate _ => true
  | .handleEvents _ => true
  | .render _ _ => true
  | .noteOff _ _ => true
  | .noteOn _ _ => true
  | .ignored status _ _ => status != 0x80#8 && status != 0x90#8
  | .pitchToFreq _ => true
  | .changeFrequency _ => true
  | .nextSample => true
  | .nextSampleSine => true
  | .nextSampleSaw => true
  | .harmonicCount => true
  | .phaseAdvance => true

/-- A well-formed instruction. -/
abbrev WellFormed (i : Instr) : Prop := i.wellFormed = true

end Sys2Proof
end

