-- ==== Sys2Proof/Decode.lean ====
section
/-!
DEFINITION. From transactions to instructions and back (30_encoding.md). Decoding is total: an unknown command tag is
rejected as BAD_COMMAND before any operand is looked at (R65, R175), and operands that are not of the command's form
are rejected by name. After the decoder stand the encoder, written from the same tables, and the assembler's
expansion.
-/

namespace Sys2Proof

/-- Why a packet is not an instruction. -/
inductive DecodeError
  /-- The tag is not 0x01, 0x02 or 0x03 (R65). -/
  | badCommand (tag : Byte)
  /-- The operand values do not have the form R63 gives this command. -/
  | badOperands (tag : Byte)
  /-- The operand values do not have the form of this internal operation. -/
  | badInvoke (op : InternalOp)
  deriving DecidableEq, Repr

/-- R61: the status byte alone selects the kind, by comparing all 8 bits. -/
def eventKind (status : Byte) : EventKind :=
  if status = 0x80#8 then .noteOff
  else if status = 0x90#8 then .noteOn
  else .ignored

/-- R61 and R62: the operation one message selects. -/
def decodeEvent (e : Event) : Instr :=
  match eventKind e.status with
  | .noteOff => .noteOff e.data1 e.data2
  | .noteOn => .noteOn e.data1 e.data2
  | .ignored => .ignored e.status e.data1 e.data2

/-- A list of byte values cut into messages of three bytes (R66); none if a value is no byte or a message is cut short. -/
def decodeMessages : List Nat → Option (List Event)
  | [] => some []
  | s :: d1 :: d2 :: rest =>
    if s < 256 ∧ d1 < 256 ∧ d2 < 256 then
      (decodeMessages rest).map fun es => ⟨BitVec.ofNat 8 s, BitVec.ofNat 8 d1, BitVec.ofNat 8 d2⟩ :: es
    else none
  | _ => none

/-- The rate operand: a 32-bit pattern (R64). -/
def decodeRate : List Nat → Option Instr
  | [r] => if r < 2 ^ 32 then some (.setSampleRate ⟨BitVec.ofNat 32 r⟩) else none
  | _ => none

/-- The batch operand: L and then L messages (R63). -/
def decodeBatch : List Nat → Option Instr
  | [] => none
  | l :: bytes =>
    match decodeMessages bytes with
    | some es => if es.length = l then some (.handleEvents es) else none
    | none => none

/-- The block operands: `num_samples`, `num_channels` (R63). -/
def decodeBlock : List Nat → Option Instr
  | [n, c] => some (.render n c)
  | _ => none

/-- The operands of a command by its tag; none for an unknown tag (R63). -/
def decodeOperands (tag : Byte) : Option (List Nat → Option Instr) :=
  if tag = 0x01#8 then some decodeRate
  else if tag = 0x02#8 then some decodeBatch
  else if tag = 0x03#8 then some decodeBlock
  else none

/-- An internal operation's operands (R68). -/
def decodeInvoke : InternalOp → List Nat → Option Instr
  | .pitchToFreq, [p] => if p < 256 then some (.pitchToFreq (BitVec.ofNat 8 p)) else none
  | .changeFrequency, [f] => if f < 2 ^ 64 then some (.changeFrequency ⟨BitVec.ofNat 64 f⟩) else none
  | .nextSample, [] => some .nextSample
  | .nextSampleSine, [] => some .nextSampleSine
  | .nextSampleSaw, [] => some .nextSampleSaw
  | .harmonicCount, [] => some .harmonicCount
  | .phaseAdvance, [] => some .phaseAdvance
  | _, _ => none

/-- The instruction a packet carries, or why it carries none. -/
def decode : Packet → Except DecodeError Instr
  | .command tag operands =>
    match decodeOperands tag with
    | none => .error (.badCommand tag)
    | some read =>
      match read operands with
      | some i => .ok i
      | none => .error (.badOperands tag)
  | .event status data1 data2 => .ok (decodeEvent ⟨status, data1, data2⟩)
  | .invoke op operands =>
    match decodeInvoke op operands with
    | some i => .ok i
    | none => .error (.badInvoke op)

/-! ### The encoder -/

/-- The bytes of one message in stream order (R60). -/
def encodeMessage (e : Event) : List Nat := [e.status.toNat, e.data1.toNat, e.data2.toNat]

/-- The packet of an instruction (R60, R63, R68). -/
def encode : Instr → Packet
  | .setSampleRate rate => .command 0x01#8 [rate.bits.toNat]
  | .handleEvents events => .command 0x02#8 (events.length :: events.flatMap encodeMessage)
  | .render numSamples numChannels => .command 0x03#8 [numSamples, numChannels]
  | .noteOff note velocity => .event 0x80#8 note velocity
  | .noteOn note velocity => .event 0x90#8 note velocity
  | .ignored status data1 data2 => .event status data1 data2
  | .pitchToFreq pitch => .invoke .pitchToFreq [pitch.toNat]
  | .changeFrequency freq => .invoke .changeFrequency [freq.bits.toNat]
  | .nextSample => .invoke .nextSample []
  | .nextSampleSine => .invoke .nextSampleSine []
  | .nextSampleSaw => .invoke .nextSampleSaw []
  | .harmonicCount => .invoke .harmonicCount []
  | .phaseAdvance => .invoke .phaseAdvance []

/-! ### Words numbered as spec/opcode_table.json numbers them -/

/-- The packet of a table word (log entry 17). A 24-bit word is an event message `M = {status, data1, data2}` (R60).
Any other word has a command tag in bits 7:0; the bits above it are the rate of a SET_SAMPLE_RATE, and the operands of
the other commands, which have no width in the table, are zero: an empty batch, an empty block. -/
def packetOfWord (nbits w : Nat) : Packet :=
  if nbits = 24 then
    .event (BitVec.ofNat 8 (w / 2 ^ 16)) (BitVec.ofNat 8 (w / 2 ^ 8)) (BitVec.ofNat 8 w)
  else
    let tag := BitVec.ofNat 8 w
    if tag = 0x01#8 then .command tag [w / 2 ^ 8 % 2 ^ 32]
    else if tag = 0x02#8 then .command tag [0]
    else if tag = 0x03#8 then .command tag [0, 0]
    else .command tag []

/-- The instruction the decoder reads from a table word. -/
def decodeTableWord (nbits w : Nat) : Option Instr :=
  match decode (packetOfWord nbits w) with
  | .ok i => some i
  | .error _ => none

/-! ### The assembler (R67) -/

/-- The message an assembler line stands for; a velocity left out is 0x40 for `noteon` and 0x00 for `noteoff`. -/
def asmMessage : AsmMsg → Event
  | .msg status data1 data2 => ⟨status, data1, data2⟩
  | .noteon note velocity => ⟨0x90#8, note, velocity.getD 0x40#8⟩
  | .noteoff note velocity => ⟨0x80#8, note, velocity.getD 0x00#8⟩

/-- The commands an assembler line stands for, pseudo-instructions expanded. -/
def asmExpand : Asm → List Instr
  | .srate rate => [.setSampleRate rate]
  | .events msgs => [.handleEvents (msgs.map asmMessage)]
  | .render numSamples numChannels => [.render numSamples numChannels]
  | .ev m => [.handleEvents [asmMessage m]]
  | .block msgs numSamples numChannels =>
    [.handleEvents (msgs.map asmMessage), .render numSamples numChannels]

end Sys2Proof
end

