-- ==== Sys2Proof/Machine/FloatBits.lean ====
section
/-!
DEFINITION. IEEE 754 binary64 and binary32 seen exactly (00_scope.md R6): the fields of a bit pattern, the order of
the values, the exact value of a finite one as an integer number of units, and the rounding of an exact ratio to the
nearest value, ties to even. A unit is the smallest positive subnormal: `2^-1074` for binary64, `2^-149` for binary32,
so every finite value is a whole number of units. The magnitude of a value is its pattern without the sign bit, read
as one number; magnitudes are ordered as the absolute values are.
-/

namespace Sys2Proof

/-- The exact value of a magnitude `m` in units, for a format with `p` fraction bits: a subnormal is its fraction, a
normal value its significand shifted by its exponent field less one. -/
def magUnits (p m : Nat) : Nat :=
  if m / 2 ^ p = 0 then m else (2 ^ p + m % 2 ^ p) * 2 ^ (m / 2 ^ p - 1)

/-- How far the ratio `num / den` (in units) must be shifted down to fit `p + 1` bits; 0 in the subnormal range. -/
def roundShift (p num den : Nat) : Nat :=
  Nat.log2 (num / den) - p

/-- Whether a quotient `q` with remainder `r` of a division by `d` rounds up: to nearest, ties to even (R6). -/
def roundsUp (q r d : Nat) : Bool :=
  decide (d < 2 * r) || (decide (2 * r = d) && decide (q % 2 = 1))

/-- The magnitude nearest to the exact ratio `num / den` of units, ties to even, exponent range unbounded above.
A significand that rounds up to the next power of two carries into the exponent field by itself. -/
def roundMag (p num den : Nat) : Nat :=
  let k := roundShift p num den
  let d := den * 2 ^ k
  k * 2 ^ p + num / d + (if roundsUp (num / d) (num % d) d then 1 else 0)

/-! ### binary64 -/

/-- Sign bit. -/
def B64.neg (x : B64) : Bool := x.bits.msb

/-- Magnitude: exponent and fraction fields as one number. -/
def B64.mag (x : B64) : Nat := x.bits.toNat % 2 ^ 63

/-- The magnitude of infinity: exponent field all ones, fraction zero. -/
def B64.infMag : Nat := 0x7FF0000000000000

/-- 1.0 (and every other integer `k`, times `k`) in units of `2^-1074`. -/
def B64.one : Nat := 2 ^ 1074

/-- `finite(a)` of R13. -/
def B64.isFinite (x : B64) : Bool := decide (x.mag < B64.infMag)

def B64.isInf (x : B64) : Bool := decide (x.mag = B64.infMag)

def B64.isNaN (x : B64) : Bool := decide (B64.infMag < x.mag)

/-- ±0.0. -/
def B64.isZero (x : B64) : Bool := decide (x.mag = 0)

/-- The exact magnitude in units (meaningful for a finite value). -/
def B64.units (x : B64) : Nat := magUnits 52 x.mag

/-- The exact value in units (meaningful for a finite value). -/
def B64.value (x : B64) : Int := if x.neg then -(x.units : Int) else (x.units : Int)

/-- Position of a value in the order of binary64: both zeros at 0, infinities at the two ends. -/
def B64.key (x : B64) : Int := if x.neg then -(x.mag : Int) else (x.mag : Int)

/-- Numeric `<`; false when either side is a NaN. -/
def B64.lt (x y : B64) : Bool := !x.isNaN && !y.isNaN && decide (x.key < y.key)

/-- Numeric `<=`; false when either side is a NaN. -/
def B64.le (x y : B64) : Bool := !x.isNaN && !y.isNaN && decide (x.key ≤ y.key)

/-- The pattern with this sign and magnitude. -/
def B64.pack (neg : Bool) (mag : Nat) : B64 :=
  ⟨BitVec.ofNat 64 ((if neg then 2 ^ 63 else 0) + mag)⟩

/-- The binary64 value nearest to ±`num / den` units; a result beyond the largest finite value is infinite (R6). -/
def B64.ofRatio (neg : Bool) (num den : Nat) : B64 :=
  B64.pack neg (min (roundMag 52 num den) B64.infMag)

/-- `to_b64(k)` of R13 for an integer `k`. -/
def B64.ofInt (k : Int) : B64 := B64.ofRatio (decide (k < 0)) (k.natAbs * B64.one) 1

/-- `2^k`, for the exponents EXP2_INT of R10 speaks of (exact in that range). -/
def B64.pow2 (k : Int) : B64 := B64.ofRatio false (2 ^ (1074 + k).toNat) 1

/-- +0.0. -/
def B64.zero : B64 := ⟨0#64⟩

/-- The same magnitude with the other sign. -/
def B64.negate (x : B64) : B64 := B64.pack (!x.neg) x.mag

/-! ### binary32 -/

/-- Sign bit. -/
def B32.neg (x : B32) : Bool := x.bits.msb

/-- Magnitude: exponent and fraction fields as one number. -/
def B32.mag (x : B32) : Nat := x.bits.toNat % 2 ^ 31

/-- The magnitude of infinity. -/
def B32.infMag : Nat := 0x7F800000

/-- `finite(a)` of R13. -/
def B32.isFinite (x : B32) : Bool := decide (x.mag < B32.infMag)

def B32.isInf (x : B32) : Bool := decide (x.mag = B32.infMag)

def B32.isNaN (x : B32) : Bool := decide (B32.infMag < x.mag)

/-- The exact magnitude in units of `2^-149` (meaningful for a finite value). -/
def B32.units (x : B32) : Nat := magUnits 23 x.mag

/-- `x > 0.0`: not a NaN, not a zero, sign clear. -/
def B32.positive (x : B32) : Bool := !x.isNaN && !x.neg && decide (0 < x.mag)

/-- The pattern with this sign and magnitude. -/
def B32.pack (neg : Bool) (mag : Nat) : B32 :=
  ⟨BitVec.ofNat 32 ((if neg then 2 ^ 31 else 0) + mag)⟩

/-- The binary32 value nearest to ±`num / den` units of `2^-149`; beyond the largest finite value, infinite. -/
def B32.ofRatio (neg : Bool) (num den : Nat) : B32 :=
  B32.pack neg (min (roundMag 23 num den) B32.infMag)

/-- binary32 +0.0, the sample of an Idle core (R141). -/
def B32.zero : B32 := ⟨0#32⟩

/-- One binary32 unit (`2^-149`) in binary64 units (`2^-1074`). -/
def B32.unitInB64 : Nat := 2 ^ 925

end Sys2Proof
end

