-- ==== Sys2Proof/Config.lean ====
section
/-!
DEFINITION. What is fixed when the core is constructed (00_scope.md R7) and the values the spec leaves open. A
constant declared `opaque` has no body: nothing can be proved about it beyond what its type says. SIN and EXP2 are
opaque functions whose TYPE carries exactly the properties a model may rely on, so every function with those
properties is covered and nothing else is assumed.
-/

namespace Sys2Proof

/-- `OSC_KIND` (R8): which oscillator variant the core contains. -/
inductive OscKind
  | sine
  | saw
  deriving DecidableEq, Repr, Inhabited

/-- `HOST_BYTE_ORDER` (R43). -/
inductive ByteOrder
  | little
  | big
  deriving DecidableEq, Repr, Inhabited

/-- The operations whose NaN results have a free sign and payload (log entry 6). -/
inductive FloatOp
  | add
  | sub
  | mul
  | div
  | floor
  | narrow
  | widen
  deriving DecidableEq, Repr, Inhabited

/-- `1.0`. -/
def B64.oneValue : B64 := ⟨0x3FF0000000000000#64⟩

/-- `-1.0`. -/
def B64.minusOne : B64 := ⟨0xBFF0000000000000#64⟩

/-- The functions `SIN` may be (R9): total on binary64, with SIN_ZERO, SIN_BOUND and SIN_FINITE. -/
structure SinFn where
  fn : B64 → B64
  zero : fn B64.zero = B64.zero
  bound : ∀ x, x.isFinite = true → B64.le B64.minusOne (fn x) = true ∧ B64.le (fn x) B64.oneValue = true
  finite : ∀ x, x.isFinite = true → (fn x).isFinite = true

/-- The lower end `-5.75` of the interval R10 speaks of: the quotient `q` of pitch 0. -/
def Exp2Fn.low : B64 := B64.ofRatio true (23 * 2 ^ 1072) 1

/-- The upper end `4.8333...` of the interval R10 speaks of: `58 / 12`, the quotient `q` of pitch 127. -/
def Exp2Fn.high : B64 := B64.ofRatio false (58 * B64.one) 12

/-- `x` lies in the interval of R10. -/
def Exp2Fn.inRange (x : B64) : Bool := B64.le Exp2Fn.low x && B64.le x Exp2Fn.high

/-- The functions `EXP2` may be (R10): total on binary64, with EXP2_INT, EXP2_MONO and EXP2_POS. `nearLow` and
`nearHigh` are DEDUCED from R82, which lets a model assume that the two end values are close to the mathematical
`2^-5.75` and `2^4.8333`: they lie within the octaves `2^-6` and `2^5` bound (log entry 2). -/
structure Exp2Fn where
  fn : B64 → B64
  int : ∀ k : Int, -5 ≤ k → k ≤ 4 → fn (B64.ofInt k) = B64.pow2 k
  mono : ∀ x y, Exp2Fn.inRange x = true → Exp2Fn.inRange y = true → B64.le x y = true →
    B64.le (fn x) (fn y) = true
  pos : ∀ x, Exp2Fn.inRange x = true → B64.lt B64.zero (fn x) = true ∧ (fn x).isFinite = true
  nearLow : B64.le (B64.pow2 (-6)) (fn Exp2Fn.low) = true
  nearHigh : B64.le (fn Exp2Fn.high) (B64.pow2 5) = true

/-- The constant zero function has the properties of R9, so they contradict nothing. It only shows that `SinFn` is
inhabited; no proof can learn that the opaque `Config.sinFn` is this function. -/
@[reducible] def SinFn.witness : Inhabited SinFn :=
  ⟨{ fn := fun _ => B64.zero, zero := rfl, bound := fun _ _ => by decide, finite := fun _ _ => by decide }⟩

/-- A rank from 0 to 9: how many of the integers -4 .. 4 are at most `x`. -/
def Exp2Fn.rank (x : B64) : Nat :=
  (List.range 9).countP fun j => decide ((B64.ofInt ((j : Int) - 4)).key ≤ x.key)

/-- The rank follows the order of the values. -/
theorem Exp2Fn.rank_mono {x y : B64} (h : x.key ≤ y.key) : Exp2Fn.rank x ≤ Exp2Fn.rank y := by
  unfold Exp2Fn.rank
  apply List.countP_mono_left
  intro j _ hj
  simp only [decide_eq_true_eq] at hj ⊢
  exact le_trans hj h

theorem Exp2Fn.rank_le (x : B64) : Exp2Fn.rank x ≤ 9 := by
  unfold Exp2Fn.rank
  exact le_trans List.countP_le_length (by simp)

theorem Exp2Fn.pow2_table : ∀ a : Nat, a < 10 → ∀ b : Nat, b < 10 → a ≤ b →
    B64.le (B64.pow2 ((a : Int) - 5)) (B64.pow2 ((b : Int) - 5)) = true := by decide +kernel

theorem Exp2Fn.pow2_positive : ∀ a : Nat, a < 10 → B64.lt B64.zero (B64.pow2 ((a : Int) - 5)) = true ∧
    (B64.pow2 ((a : Int) - 5)).isFinite = true := by decide +kernel

theorem Exp2Fn.rank_ofInt : ∀ a : Nat, a < 10 → Exp2Fn.rank (B64.ofInt ((a : Int) - 5)) = a := by decide +kernel

theorem Exp2Fn.step_int (k : Int) (h1 : -5 ≤ k) (h2 : k ≤ 4) :
    B64.pow2 ((Exp2Fn.rank (B64.ofInt k) : Int) - 5) = B64.pow2 k := by
  have hk : ((k + 5).toNat : Int) - 5 = k := by omega
  have h := Exp2Fn.rank_ofInt (k + 5).toNat (by omega)
  rw [hk] at h
  rw [h, hk]

theorem Exp2Fn.step_mono {x y : B64} (h : B64.le x y = true) :
    B64.le (B64.pow2 ((Exp2Fn.rank x : Int) - 5)) (B64.pow2 ((Exp2Fn.rank y : Int) - 5)) = true := by
  have hxy : x.key ≤ y.key := by
    simp only [B64.le, Bool.and_eq_true, decide_eq_true_eq] at h
    exact h.2
  exact Exp2Fn.pow2_table _ (Nat.lt_succ_of_le (Exp2Fn.rank_le x)) _ (Nat.lt_succ_of_le (Exp2Fn.rank_le y))
    (Exp2Fn.rank_mono hxy)

/-- The step function `2^⌊x⌋`, cut to the exponents -5 .. 4, has the properties of R10 and the two end bounds, so they
contradict nothing. It only shows that `Exp2Fn` is inhabited. -/
@[reducible] def Exp2Fn.witness : Inhabited Exp2Fn :=
  ⟨{ fn := fun x => B64.pow2 ((Exp2Fn.rank x : Int) - 5)
     int := Exp2Fn.step_int
     mono := fun _ _ _ _ h => Exp2Fn.step_mono h
     pos := fun x _ => Exp2Fn.pow2_positive _ (Nat.lt_succ_of_le (Exp2Fn.rank_le x))
     nearLow := by decide +kernel
     nearHigh := by decide +kernel }⟩

namespace Config

/-- Some function with the properties of R9: which one, nothing says. -/
opaque sinFn (h : Inhabited SinFn) : SinFn

/-- Some function with the properties of R10: which one, nothing says. -/
opaque exp2Fn (h : Inhabited Exp2Fn) : Exp2Fn

/-- `SIN` (R9). -/
def sin (x : B64) : B64 := (sinFn SinFn.witness).fn x

/-- `EXP2` (R10). -/
def exp2 (x : B64) : B64 := (exp2Fn Exp2Fn.witness).fn x

/-- `OSC_KIND` (R8, R27): no default; fixed for the core's lifetime. -/
opaque oscKind : OscKind

/-- `HOST_BYTE_ORDER` (R43): open. -/
opaque hostByteOrder : ByteOrder

/-- `SAW_EPS_HZ` (R7, R98): 1.0 Hz, the value the spec decides. -/
def sawEpsHz : B64 := B64.oneValue

/-- `SR_RESET` (R7, R191): `UNSET`, the spec's default. -/
def srReset : Option B64 := none

/-- `TWO_PI` (R90): 6.283185307179586. -/
def twoPi : B64 := ⟨0x401921FB54442D18#64⟩

/-- FREE VALUE: sign and payload bits of the NaN an operation answers (log entry 6). -/
opaque nanBits : FloatOp → B64 → B64 → BitVec 64

/-- FREE VALUE: PITCH_TO_FREQ of a pitch above 127, for which the spec states no result (N12, U6; log entry 12). -/
opaque pitchAbove127 : Byte → B64

/-- FREE VALUE: HARMONIC_COUNT of a sample rate and a frequency at or below the guard, or whose quotient is not
finite: "undefined/huge" (R96, R98, U1; log entry 13). -/
opaque harmonicsOutsideGuard : B64 → B64 → Int

/-- FREE VALUE: `fract` of a negative, infinite or NaN value, which R91 does not define (log entry 14). -/
opaque fractOutsideDomain : B64 → B64

end Config

end Sys2Proof
end

