-- ==== Sys2Proof/Machine/Float.lean ====
section
/-!
DEFINITION. The IEEE 754 operations of 00_scope.md R6 and R13: each computes the exact result as an integer or a ratio
of units and rounds it once, to nearest, ties to even. Subnormals are kept; nothing traps and no flag is set. A NaN
result is a quiet NaN whose sign and payload are free (log entry 6).
-/

namespace Sys2Proof

/-- A quiet binary64 NaN: exponent all ones, top fraction bit set, the other bits free. -/
def B64.nan (op : FloatOp) (a b : B64) : B64 :=
  ⟨0x7FF8000000000000#64 ||| (Config.nanBits op a b &&& 0x8007FFFFFFFFFFFF#64)⟩

/-- A quiet binary32 NaN, the other bits free. -/
def B32.nan (op : FloatOp) (a : B64) : B32 :=
  ⟨0x7FC00000#32 ||| ((Config.nanBits op a a).truncate 32 &&& 0x803FFFFF#32)⟩

/-- `±0.0`. -/
def B64.signedZero (neg : Bool) : B64 := B64.pack neg 0

/-- `±infinity`. -/
def B64.signedInf (neg : Bool) : B64 := B64.pack neg B64.infMag

/-- The binary64 nearest to an exact integer number of units; an exact zero takes the sign given for it. -/
def B64.ofUnits (zeroNeg : Bool) (v : Int) : B64 :=
  if v = 0 then B64.signedZero zeroNeg else B64.ofRatio (decide (v < 0)) v.natAbs 1

/-- The sum of two values, under the name of the operation that asks for it. An exact zero sum is +0.0, except that
-0.0 + -0.0 is -0.0. -/
def B64.addAs (op : FloatOp) (a b : B64) : B64 :=
  if a.isNaN || b.isNaN then B64.nan op a b
  else if a.isInf then (if b.isInf && (a.neg != b.neg) then B64.nan op a b else a)
  else if b.isInf then b
  else B64.ofUnits (a.neg && b.neg) (a.value + b.value)

/-- `a + b` (R13). -/
def B64.add (a b : B64) : B64 := B64.addAs .add a b

/-- `a - b` (R13): the sum of `a` and `b` with its sign changed. -/
def B64.sub (a b : B64) : B64 := B64.addAs .sub a b.negate

/-- `a × b` (R13). -/
def B64.mul (a b : B64) : B64 :=
  if a.isNaN || b.isNaN then B64.nan .mul a b
  else if a.isInf || b.isInf then
    (if a.isZero || b.isZero then B64.nan .mul a b else B64.signedInf (a.neg != b.neg))
  else B64.ofRatio (a.neg != b.neg) (a.units * b.units) B64.one

/-- `a / b` (R13). -/
def B64.div (a b : B64) : B64 :=
  if a.isNaN || b.isNaN then B64.nan .div a b
  else if a.isInf then (if b.isInf then B64.nan .div a b else B64.signedInf (a.neg != b.neg))
  else if b.isInf then B64.signedZero (a.neg != b.neg)
  else if b.isZero then (if a.isZero then B64.nan .div a b else B64.signedInf (a.neg != b.neg))
  else B64.ofRatio (a.neg != b.neg) (a.units * B64.one) b.units

/-- The largest integer at most a finite value. -/
def B64.floorInt (a : B64) : Int := a.value.fdiv (B64.one : Int)

/-- `floor(a)` (R13): exact; a zero result keeps the sign of `a`. -/
def B64.floor (a : B64) : B64 :=
  if a.isNaN then B64.nan .floor a a
  else if a.isInf then a
  else B64.ofUnits a.neg (a.floorInt * (B64.one : Int))

/-- `to_int(a)` (R13): the integer value of an integral finite value; no integer otherwise. -/
def B64.toInt? (a : B64) : Option Int :=
  if a.isFinite && decide (a.value = a.floorInt * (B64.one : Int)) then some a.floorInt else none

/-- `to_b32(a)` (R13, R145). -/
def B64.toB32 (a : B64) : B32 :=
  if a.isNaN then B32.nan .narrow a
  else if a.isInf then B32.pack a.neg B32.infMag
  else B32.ofRatio a.neg a.units B32.unitInB64

/-- `to_b64(r32)` (R13): exact widening. -/
def B32.toB64 (r : B32) : B64 :=
  if r.isNaN then B64.nan .widen ⟨r.bits.zeroExtend 64⟩ ⟨r.bits.zeroExtend 64⟩
  else if r.isInf then B64.signedInf r.neg
  else B64.ofRatio r.neg (r.units * B32.unitInB64) 1

/-! ### Constants the pseudocode writes as literals -/

/-- `2.0`. -/
def B64.two : B64 := ⟨0x4000000000000000#64⟩

/-- `12.0`. -/
def B64.twelve : B64 := ⟨0x4028000000000000#64⟩

/-- `440.0`. -/
def B64.a440 : B64 := ⟨0x407B800000000000#64⟩

/-- The bytes of a binary32 value in the host's byte order (R43); needed only for a byte image of OUT. -/
def B32.bytes (order : ByteOrder) (v : B32) : List Byte :=
  let little := [v.bits.extractLsb' 0 8, v.bits.extractLsb' 8 8, v.bits.extractLsb' 16 8, v.bits.extractLsb' 24 8]
  match order with
  | .little => little
  | .big => little.reverse

end Sys2Proof
end

