-- ==== Sys2Proof/Machine/State.lean ====
section
/-!
DEFINITION. The state of the core (10_state.md), the record of a refusal (60_exceptions.md R172), the output buffer the
core writes (20_memory.md R41), and the state right after reset (70_reset_and_hazards.md R191).
-/

namespace Sys2Proof.Machine

/-- The spec's refusal reasons with the information each records (R172). `SR_UNSET` records `num_samples`; an internal
operation run as a step of its own has none (log entry 11). -/
inductive RefusalReason
  /-- Code 1: SET_SAMPLE_RATE with a rate that is NaN, infinite, ±0.0 or negative; the rejected binary32. -/
  | srInvalid (rate : B32)
  /-- Code 2: NOTE_ON with `data1 > 127`; the event's index in its batch and its three bytes. -/
  | noteRange (index : Nat) (event : Event)
  /-- Code 3: a sample is asked for while the sample rate is UNSET; RENDER's `num_samples`. -/
  | srUnset (numSamples : Option Nat)
  /-- Code 4: the tag of an illegal command. -/
  | badCommand (tag : Byte)
  deriving DecidableEq, Repr

/-- The reason's code (R172). -/
def RefusalReason.code : RefusalReason → Nat
  | .srInvalid _ => 1
  | .noteRange _ _ => 2
  | .srUnset _ => 3
  | .badCommand _ => 4

/-- One written slot of the output buffer: `OUT[channel][sample]` (R41). -/
structure Slot where
  channel : Nat
  sample : Nat
  value : B32
  deriving DecidableEq, Repr

/-- The output buffer: its written slots, in the canonical form `OutBuffer.wf` (Machine/Ops.lean). -/
abbrev OutBuffer := List Slot

/-- What an internal operation that ran as a step of its own gave back (R80, R94 to R97; log entry 9). -/
inductive Returned
  /-- No internal operation has answered a value. -/
  | nothing
  /-- A binary64: a frequency or a sample. -/
  | float (value : B64)
  /-- An integer: a harmonic count. -/
  | int (value : Int)
  deriving DecidableEq, Repr

/-- The core's five registers (R20), the refused mark with its record (R33, R172), the output buffer (R41), and the
model's own two fields: the value an internal operation gave back and the transactions not yet executed. -/
structure State where
  /-- `x[frequency]`, Hz (R21). -/
  frequency : B64
  /-- `x[phase]` (R22). -/
  phase : B64
  /-- `x[current_note]`: `none` when Idle (R23, R24). -/
  currentNote : Option Byte
  /-- `x[note_duration]`, samples (R25). -/
  noteDuration : B64
  /-- `x[sample_rate]`, or UNSET (R26). -/
  sampleRate : Option B64
  /-- `x[refused]` (R33). -/
  refused : Bool
  /-- The reason and information of the refusal (R172). -/
  refusal : Option RefusalReason
  /-- OUT (R41). -/
  out : OutBuffer
  /-- MODEL'S OWN: the last value an internal operation gave back. -/
  returned : Returned
  /-- MODEL'S OWN: transactions issued and not yet executed, oldest first (R28, R162). -/
  inbox : List Packet
  deriving DecidableEq, Repr

/-- The machine raises no fault: "no command ends in a fault that the core itself reports" (R15, R170). -/
inductive Fault
  deriving DecidableEq, Repr

/-- Why a step answers no next state. The spec's own refusals are not among these: they are next states with the mark
`refused` set (R171). -/
inductive Refusal
  /-- Raised by an arm of `exec` whose instruction has no meaning yet. Safe: nothing can be proved of it. -/
  | notModelled (mnemonic : String)
  /-- Raised by `step` in a state whose `refused` mark is set: the run has ended (R166, R171). Safe: the spec gives no
  meaning to what the hardware does next. -/
  | runEnded
  /-- Raised by `step` for a command whose operand values do not have the form R63 gives it. Safe: the spec gives such
  a transaction no meaning, and a host that sends typed operands cannot form it. -/
  | badOperands (tag : Byte)
  /-- Raised by `step` for an internal operation with operand values it does not take. Safe: no host can ask for an
  internal operation. -/
  | badInvoke (op : InternalOp)
  deriving DecidableEq, Repr

/-- The state after reset (R191): the core is constructed, Idle, and waits for the first command (R190). -/
def State.reset : State where
  frequency := B64.zero
  phase := B64.zero
  currentNote := none
  noteDuration := B64.zero
  sampleRate := Config.srReset
  refused := false
  refusal := none
  out := []
  returned := .nothing
  inbox := []

end Sys2Proof.Machine
end

