-- ==== Sys2Proof/Machine/Ops.lean ====
section
/-!
DEFINITION. The named operations over the state: writing a register, the refusal of 60_exceptions.md R171 (the core's
one exception-like event: what it records and what it leaves alone), handing back a value, and the output buffer of
20_memory.md.
-/

namespace Sys2Proof.Machine

/-! ### Register writes -/

def State.setFrequency (s : State) (f : B64) : State := { s with frequency := f }
def State.setPhase (s : State) (p : B64) : State := { s with phase := p }
def State.setNote (s : State) (n : Option Byte) : State := { s with currentNote := n }
def State.setDuration (s : State) (d : B64) : State := { s with noteDuration := d }
def State.setSampleRate (s : State) (r : B64) : State := { s with sampleRate := some r }
def State.setOut (s : State) (o : OutBuffer) : State := { s with out := o }
def State.setInbox (s : State) (q : List Packet) : State := { s with inbox := q }

/-- An internal operation that ran as a step of its own hands its value back (log entry 9). -/
def State.give (s : State) (r : Returned) : State := { s with returned := r }

/-! ### Refusal and its end -/

/-- `raise Refusal(reason)` (R171): no state register and no OUT slot is written; the sticky mark is set and the reason
recorded (R172). There is no return from it: nothing clears the mark (R33), and the run ends (R166). -/
def State.raise (s : State) (r : RefusalReason) : State := { s with refused := true, refusal := some r }

/-- A command or event ends in exactly one of two ways (R15): Done, with its writes applied, or Refused. -/
def State.settle (s : State) : Except RefusalReason State → State
  | .ok t => t
  | .error r => s.raise r

/-! ### The output buffer -/

/-- The slot of a channel and sample comes before another: by channel, then by sample. -/
def Slot.before (a b : Slot) : Bool :=
  decide (a.channel < b.channel) || (decide (a.channel = b.channel) && decide (a.sample < b.sample))

/-- The slot is `OUT[c][n]`. -/
def Slot.isAt (a : Slot) (c n : Nat) : Bool := decide (a.channel = c) && decide (a.sample = n)

/-- The canonical form: slots strictly rising by channel and then sample. An unlisted slot has never been written. -/
abbrev OutBuffer.wf (o : OutBuffer) : Prop := o.Pairwise fun a b => a.before b = true

/-- What `OUT[c][n]` holds; `none` if the core has not written it (log entry 15). -/
def OutBuffer.read (o : OutBuffer) (c n : Nat) : Option B32 :=
  (o.find? fun a => a.isAt c n).map Slot.value

/-- `MemWrite(OUT[c][n], 4, v)` (R14): one whole binary32 value (R45). -/
def OutBuffer.write (o : OutBuffer) (c n : Nat) (v : B32) : OutBuffer :=
  match o with
  | [] => [⟨c, n, v⟩]
  | a :: rest =>
    if a.isAt c n then ⟨c, n, v⟩ :: rest
    else if a.before ⟨c, n, v⟩ then a :: OutBuffer.write rest c n v
    else ⟨c, n, v⟩ :: a :: rest

/-- R143: the same value to sample `n` of the first `channels` channels. -/
def OutBuffer.broadcast (o : OutBuffer) (n : Nat) (v : B32) : Nat → OutBuffer
  | 0 => o
  | c + 1 => (OutBuffer.broadcast o n v c).write c n v

/-- The bytes of a written slot in the host's byte order (R43); no rule of the core depends on it. -/
def OutBuffer.slotBytes (o : OutBuffer) (c n : Nat) : Option (List Byte) :=
  (o.read c n).map (B32.bytes Config.hostByteOrder)

end Sys2Proof.Machine
end

