-- ==== Sys2Proof/Machine/Flags.lean ====
section
/-!
DEFINITION. The core's only flag and the NoteState machine's state, both functions of `x[current_note]` (R24).
-/

namespace Sys2Proof.Machine

/-- The Sounding flag: the presence bit of `x[current_note]`. -/
def State.sounding (s : State) : Bool := s.currentNote.isSome

/-- The two states of the NoteState machine. -/
inductive NoteState
  | idle
  | sounding (note : Byte)
  deriving DecidableEq, Repr

/-- `Idle` exactly when no note is held, `Sounding(n)` exactly when `n` is. -/
def State.noteState (s : State) : NoteState :=
  match s.currentNote with
  | none => .idle
  | some n => .sounding n

end Sys2Proof.Machine
end

