-- ==== Sys2Proof/Machine/Operands.lean ====
section
/-!
DEFINITION. The operand checks of the commands and events: each is the one condition under which the spec refuses that
command or event (R160, R128, R147), and the sample rate an internal operation takes from the state.
-/

namespace Sys2Proof.Machine

/-- R160: the rate is finite and `> 0.0`. NaN, ±infinity, ±0.0 and negative values are not legal. -/
def rateLegal (rate : B32) : Bool := rate.isFinite && rate.positive

/-- R128: the note number is in 0..127. -/
def noteLegal (note : Byte) : Bool := decide (note.toNat ≤ 127)

/-- An internal operation run as a step of its own takes the sample rate from the state. While it is UNSET no rate
exists to compute with, which every caller excludes (R92, R147): the use is refused as SR_UNSET (log entry 11). -/
def State.withRate (s : State) (run : B64 → State) : State :=
  match s.sampleRate with
  | some sr => run sr
  | none => s.raise (.srUnset none)

end Sys2Proof.Machine
end

