-- ==== Sys2Proof/Machine/Oscillator.lean ====
section
/-!
DEFINITION. The phase accumulator, the sine oscillator and the band-limited sawtooth (41_oscillator.md). An operation
that needs the sample rate takes it as an argument, as the source's `next_sample(sample_rate)` does (R94).
-/

namespace Sys2Proof.Machine

/-- R91: `s - floor(s)`, one binary64 subtraction, for finite `s >= 0.0`; R91 defines it nowhere else, so elsewhere it
is a free value (log entry 14). -/
def fract (x : B64) : B64 :=
  if x.isFinite && B64.le B64.zero x then B64.sub x (B64.floor x) else Config.fractOutsideDomain x

/-- PHASE_ADVANCE (R92): the division, the addition, then the fractional part. -/
def phaseAdvance (sr : B64) (s : State) : State :=
  s.setPhase (fract (B64.add s.phase (B64.div s.frequency sr)))

/-- CHANGE_FREQUENCY (R93): the frequency alone; the phase is kept. -/
def changeFrequency (freq : B64) (s : State) : State := s.setFrequency freq

/-- R98: the guard of the harmonic sum. -/
def sawGuard (freq : B64) : Bool := B64.lt Config.sawEpsHz freq

/-- R96: `floor((sr / 2.0) / freq)` as an integer. The spec evaluates it only when the guard passes; elsewhere the
source calls it "undefined/huge" (U1), and `to_int` has no value for a quotient that is not finite: there it is a
free value (log entry 13). -/
def harmonicCount (sr freq : B64) : Int :=
  if sawGuard freq then
    match (B64.floor (B64.div (B64.div sr B64.two) freq)).toInt? with
    | some h => h
    | none => Config.harmonicsOutsideGuard sr freq
  else Config.harmonicsOutsideGuard sr freq

/-- R97: the term of harmonic `i`: `(SIN(wp × i) / i) / 2.0`. -/
def sawTerm (wp : B64) (i : Nat) : B64 :=
  B64.div (B64.div (Config.sin (B64.mul wp (B64.ofInt i))) (B64.ofInt i)) B64.two

/-- R97: the terms of harmonics `1 .. n`, added in ascending order starting from 0.0. -/
def sawSum (wp : B64) : Nat → B64
  | 0 => B64.zero
  | i + 1 => B64.add (sawSum wp i) (sawTerm wp (i + 1))

/-- R97, R98: the sawtooth's sample at the current phase: harmonics `1 .. hc - 1`, or 0.0 when the guard fails. -/
def sawSample (sr : B64) (s : State) : B64 :=
  if sawGuard s.frequency then
    sawSum (B64.mul Config.twoPi s.phase) (harmonicCount sr s.frequency - 1).toNat
  else B64.zero

/-- R95: the sine's sample at the current phase. -/
def sineSample (s : State) : B64 := Config.sin (B64.mul Config.twoPi s.phase)

/-- NEXT_SAMPLE_SINE (R95): the sample of the phase before the advance. -/
def nextSampleSine (sr : B64) (s : State) : B64 × State := (sineSample s, phaseAdvance sr s)

/-- NEXT_SAMPLE_SAW (R97): the phase advances also when the guard fails (R98). -/
def nextSampleSaw (sr : B64) (s : State) : B64 × State := (sawSample sr s, phaseAdvance sr s)

/-- NEXT_SAMPLE (R94): the variant the core contains. -/
def nextSample (sr : B64) (s : State) : B64 × State :=
  match Config.oscKind with
  | .sine => nextSampleSine sr s
  | .saw => nextSampleSaw sr s

/-! ### The meanings: an internal operation as a step of its own, its value handed back -/

/-- The state after an operation that answers a sample. -/
def giveSample (r : B64 × State) : State := r.2.give (.float r.1)

/-- CHANGE_FREQUENCY (R93). -/
def execChangeFrequency (freq : B64) (s : State) : Host.Outcome State Fault Refusal :=
  .next (changeFrequency freq s)

/-- NEXT_SAMPLE (R94). -/
def execNextSample (s : State) : Host.Outcome State Fault Refusal :=
  .next (s.withRate fun sr => giveSample (nextSample sr s))

/-- NEXT_SAMPLE_SINE (R95), whatever OSC_KIND is (log entry 18). -/
def execNextSampleSine (s : State) : Host.Outcome State Fault Refusal :=
  .next (s.withRate fun sr => giveSample (nextSampleSine sr s))

/-- NEXT_SAMPLE_SAW (R97), whatever OSC_KIND is (log entry 18). -/
def execNextSampleSaw (s : State) : Host.Outcome State Fault Refusal :=
  .next (s.withRate fun sr => giveSample (nextSampleSaw sr s))

/-- HARMONIC_COUNT (R96): no state register is written; the count is handed back. -/
def execHarmonicCount (s : State) : Host.Outcome State Fault Refusal :=
  .next (s.withRate fun sr => s.give (.int (harmonicCount sr s.frequency)))

/-- PHASE_ADVANCE (R92). -/
def execPhaseAdvance (s : State) : Host.Outcome State Fault Refusal :=
  .next (s.withRate fun sr => phaseAdvance sr s)

end Sys2Proof.Machine
end

