-- ==== Sys2Proof/Machine/Pitch.lean ====
section
/-!
DEFINITION. The pitch-to-frequency converter (40_pitch_converter.md).
-/

namespace Sys2Proof.Machine

/-- `pitch - 69`: an exact signed integer subtraction (R81). -/
def pitchOffset (pitch : Byte) : Int := (pitch.toNat : Int) - 69

/-- `q`: the offset divided by 12.0, one binary64 division (R80). -/
def pitchQuotient (pitch : Byte) : B64 := B64.div (B64.ofInt (pitchOffset pitch)) B64.twelve

/-- R80: `EXP2(q) × 440.0`. The spec states no result for a pitch above 127 (N12): a free value (log entry 12). -/
def pitchToFreq (pitch : Byte) : B64 :=
  if pitch.toNat ≤ 127 then B64.mul (Config.exp2 (pitchQuotient pitch)) B64.a440
  else Config.pitchAbove127 pitch

/-- PITCH_TO_FREQ (R80): no state register is written; the frequency is handed back. -/
def execPitchToFreq (pitch : Byte) (s : State) : Host.Outcome State Fault Refusal :=
  .next (s.give (.float (pitchToFreq pitch)))

end Sys2Proof.Machine
end

