-- ==== Sys2Proof/Machine/Events.lean ====
section
/-!
DEFINITION. The note tracker and the event router (42_note_state.md).
-/

namespace Sys2Proof.Machine

/-- NOTE_ON (R121): the note, the duration, then the frequency; the phase is kept. Refused above 127 (R128), with the
event's index in its batch and its bytes recorded (R172). -/
def noteOn (index : Nat) (note velocity : Byte) (s : State) : Except RefusalReason State :=
  if noteLegal note then
    .ok (changeFrequency (pitchToFreq note) ((s.setNote (some note)).setDuration B64.zero))
  else .error (.noteRange index ⟨0x90#8, note, velocity⟩)

/-- NOTE_OFF (R122): the note ends only if it is the one sounding. -/
def noteOff (note : Byte) (s : State) : State :=
  if s.currentNote = some note then s.setNote none else s

/-- IGNORED (R123): no state is written. -/
def ignored (s : State) : State := s

/-- One message of a batch, decoded by its status byte (R61) and applied (R120). -/
def applyEvent (index : Nat) (e : Event) (s : State) : Except RefusalReason State :=
  match eventKind e.status with
  | .noteOff => .ok (noteOff e.data1 s)
  | .noteOn => noteOn index e.data1 e.data2 s
  | .ignored => .ok (ignored s)

/-- NOTE_ON (R121); as a transaction of its own it is event 0 of a batch of one (R67, log entry 8). -/
def execNoteOn (note velocity : Byte) (s : State) : Host.Outcome State Fault Refusal :=
  .next (s.settle (noteOn 0 note velocity s))

/-- NOTE_OFF (R122); the velocity has no effect (R124). -/
def execNoteOff (note _velocity : Byte) (s : State) : Host.Outcome State Fault Refusal :=
  .next (noteOff note s)

/-- IGNORED (R123). -/
def execIgnored (_status _data1 _data2 : Byte) (s : State) : Host.Outcome State Fault Refusal :=
  .next (ignored s)

end Sys2Proof.Machine
end

