-- ==== Sys2Proof/Machine/Commands.lean ====
section
/-!
DEFINITION. The three host commands: SET_SAMPLE_RATE and HANDLE_EVENTS (44_host_commands.md) and RENDER
(43_renderer.md).
-/

namespace Sys2Proof.Machine

/-- SET_SAMPLE_RATE (R160): the exact widening of a legal rate, and nothing else. -/
def setSampleRate (rate : B32) (s : State) : Except RefusalReason State :=
  if rateLegal rate then .ok (s.setSampleRate rate.toB64) else .error (.srInvalid rate)

/-- HANDLE_EVENTS (R161): the events in list order, the first of them number `index`. A refused event ends the command:
the events before it stay applied, the rest are skipped. -/
def applyEvents (index : Nat) (events : List Event) (s : State) : State :=
  match events with
  | [] => s
  | e :: rest =>
    match applyEvent index e s with
    | .ok t => applyEvents (index + 1) rest t
    | .error r => s.raise r

/-- R141, R143: an Idle core writes +0.0 to samples `0 .. numSamples - 1` of every channel and changes no register. -/
def renderIdle (numChannels : Nat) (s : State) : Nat → State
  | 0 => s
  | n + 1 =>
    let t := renderIdle numChannels s n
    t.setOut (t.out.broadcast n B32.zero numChannels)

/-- R140: one sample of a Sounding block: NEXT_SAMPLE, the duration counter (R144), the conversion (R145) and the
broadcast (R143). -/
def renderSample (sr : B64) (numChannels n : Nat) (s : State) : State :=
  let r := nextSample sr s
  let t := r.2.setDuration (B64.add s.noteDuration B64.oneValue)
  t.setOut (t.out.broadcast n r.1.toB32 numChannels)

/-- R142: samples `0 .. numSamples - 1` of a Sounding block, in increasing order. -/
def renderSounding (sr : B64) (numChannels : Nat) (s : State) : Nat → State
  | 0 => s
  | n + 1 => renderSample sr numChannels n (renderSounding sr numChannels s n)

/-- RENDER (R140). Whether the core is Sounding is fixed for the whole block (R149); while it is, a block of at least
one sample needs a sample rate (R147), and an empty one needs nothing (R146). -/
def render (numSamples numChannels : Nat) (s : State) : Except RefusalReason State :=
  if s.sounding then
    if numSamples = 0 then .ok s
    else
      match s.sampleRate with
      | none => .error (.srUnset (some numSamples))
      | some sr => .ok (renderSounding sr numChannels s numSamples)
  else .ok (renderIdle numChannels s numSamples)

/-- SET_SAMPLE_RATE (R160). -/
def execSetSampleRate (rate : B32) (s : State) : Host.Outcome State Fault Refusal :=
  .next (s.settle (setSampleRate rate s))

/-- HANDLE_EVENTS (R161). -/
def execHandleEvents (events : List Event) (s : State) : Host.Outcome State Fault Refusal :=
  .next (applyEvents 0 events s)

/-- RENDER (R140). -/
def execRender (numSamples numChannels : Nat) (s : State) : Host.Outcome State Fault Refusal :=
  .next (s.settle (render numSamples numChannels s))

end Sys2Proof.Machine
end

