-- ==== Sys2Proof/Machine/Dispatch.lean ====
section
/-! DEFINITION. One arm per constructor of Instr, each one direct call of that instruction's meaning. -/

namespace Sys2Proof.Machine

def exec (i : Instr) (s : State) : Host.Outcome State Fault Refusal :=
  match i with
  | .setSampleRate rate => Sys2Proof.Machine.execSetSampleRate rate s
  | .handleEvents events => Sys2Proof.Machine.execHandleEvents events s
  | .render numSamples numChannels => Sys2Proof.Machine.execRender numSamples numChannels s
  | .noteOff note velocity => Sys2Proof.Machine.execNoteOff note velocity s
  | .noteOn note velocity => Sys2Proof.Machine.execNoteOn note velocity s
  | .ignored status data1 data2 => Sys2Proof.Machine.execIgnored status data1 data2 s
  | .pitchToFreq pitch => Sys2Proof.Machine.execPitchToFreq pitch s
  | .changeFrequency freq => Sys2Proof.Machine.execChangeFrequency freq s
  | .nextSample => Sys2Proof.Machine.execNextSample s
  | .nextSampleSine => Sys2Proof.Machine.execNextSampleSine s
  | .nextSampleSaw => Sys2Proof.Machine.execNextSampleSaw s
  | .harmonicCount => Sys2Proof.Machine.execHarmonicCount s
  | .phaseAdvance => Sys2Proof.Machine.execPhaseAdvance s

end Sys2Proof.Machine
end

