-- ==== Sys2Proof/Machine/Fetch.lean ====
section
/-!
DEFINITION. Where the next instruction comes from. The core has no program counter and no instruction memory (R28): the
host issues commands, and the core takes them in the order issued (R49, R162). A program comes to run by being issued
from outside (log entry 7).
-/

namespace Sys2Proof.Machine

/-- The host issues one more transaction (R165). -/
def State.issue (s : State) (p : Packet) : State := s.setInbox (s.inbox ++ [p])

/-- What the core finds when it looks for its next transaction. -/
inductive Fetched
  /-- The run has ended in a refusal (R166, R171). -/
  | ended
  /-- Nothing is pending. -/
  | waiting
  /-- The oldest transaction, and the state with it taken from the inbox. -/
  | taken (p : Packet) (rest : State)
  deriving DecidableEq, Repr

/-- Look for the next transaction. -/
def State.fetch (s : State) : Fetched :=
  if s.refused then .ended
  else
    match s.inbox with
    | [] => .waiting
    | p :: rest => .taken p (s.setInbox rest)

/-- With nothing pending the core is idle and keeps every register (R183, R190). -/
def State.wait (s : State) : State := s

/-- A transaction that is no instruction: an unknown tag is refused as BAD_COMMAND and writes no state (R164); operand
values of the wrong form are outside the spec and stop the model by name. -/
def State.reject (s : State) : DecodeError → Host.Outcome State Fault Refusal
  | .badCommand tag => .next (s.raise (.badCommand tag))
  | .badOperands tag => .refused (.badOperands tag)
  | .badInvoke op => .refused (.badInvoke op)

/-- The transaction is put in front of all others. -/
def State.pushFront (s : State) (p : Packet) : State := s.setInbox (p :: s.inbox)

end Sys2Proof.Machine
end

