-- ==== Sys2Proof/Machine/Step.lean ====
section
/-!
DEFINITION. One step: take the oldest transaction, decode it and run it (R49: one command at a time, each atomic).
-/

namespace Sys2Proof.Machine

def step (s : State) : Host.Outcome State Fault Refusal :=
  match s.fetch with
  | .ended => .refused .runEnded
  | .waiting => .next s.wait
  | .taken p t =>
    match decode p with
    | .ok i => exec i t
    | .error e => t.reject e

/-- The state with the instruction of a table word placed where `step` looks next: at the head of the inbox. -/
def State.withFetchWord (s : State) (nbits w : Nat) : State := s.pushFront (packetOfWord nbits w)

end Sys2Proof.Machine
end

