-- ==== Sys2Proof/Safety.lean ====
section
/-!
DEFINITION. The terms the claims use: what a legal state is (the "legal values" of 10_state.md R20 and the facts
41_oscillator.md derives for every reachable state), which states are reachable, what one message does, what a
clean run is, and when a value is an exact result rounded once.
-/

namespace Sys2Proof

/-- A sign and a magnitude are the exact ratio `num / den` of units rounded once, in a format with `p` fraction bits and
infinity at the magnitude `inf` (R6): the sign is the ratio's; the magnitude is infinite from the middle between the
largest finite one and the next on; a finite one is nearest, and even where another is equally near. -/
structure RoundedOnce (p inf : Nat) (neg : Bool) (mag : Nat) (num : Int) (den : Nat) : Prop where
  sign : num ≠ 0 → neg = decide (num < 0)
  bound : mag ≤ inf
  overflow : mag = inf ↔ (magUnits p (inf - 1) + magUnits p inf) * den ≤ 2 * num.natAbs
  nearest : mag < inf → ∀ m, m < inf →
    ((num.natAbs : Int) - (magUnits p mag * den : Nat)).natAbs ≤
      ((num.natAbs : Int) - (magUnits p m * den : Nat)).natAbs
  even : mag < inf → ∀ m, m < inf → m ≠ mag →
    ((num.natAbs : Int) - (magUnits p mag * den : Nat)).natAbs =
      ((num.natAbs : Int) - (magUnits p m * den : Nat)).natAbs → mag % 2 = 0

/-- The binary64 value is the ratio of units of `2^-1074`, rounded once. -/
abbrev B64.RoundsTo (x : B64) (num : Int) (den : Nat) : Prop := RoundedOnce 52 B64.infMag x.neg x.mag num den

/-- The binary32 value is the ratio of units of `2^-149`, rounded once. -/
abbrev B32.RoundsTo (x : B32) (num : Int) (den : Nat) : Prop := RoundedOnce 23 B32.infMag x.neg x.mag num den

end Sys2Proof

namespace Sys2Proof.Machine

/-- A legal phase (R20, R22): finite and in [0.0, 1.0). -/
def phaseLegal (p : B64) : Prop :=
  p.isFinite = true ∧ B64.le B64.zero p = true ∧ B64.lt p B64.oneValue = true

/-- What holds in every reachable state. -/
structure Inv (s : State) : Prop where
  /-- R23, R105: a sounding note is in 0..127 and the frequency is its own. -/
  note : ∀ n, s.currentNote = some n → n.toNat ≤ 127 ∧ s.frequency = pitchToFreq n
  /-- R21: the frequency is 0.0 or a PITCH_TO_FREQ result. -/
  frequency : s.frequency = B64.zero ∨ ∃ n : Byte, n.toNat ≤ 127 ∧ s.frequency = pitchToFreq n
  /-- R22, R103: the phase is legal. -/
  phase : phaseLegal s.phase
  /-- R25: the duration is a whole number of at most `2^53`. -/
  duration : ∃ k : Nat, k ≤ 2 ^ 53 ∧ s.noteDuration = B64.ofInt k
  /-- R26: the sample rate is UNSET or a widened legal binary32. -/
  rate : ∀ sr, s.sampleRate = some sr → ∃ r : B32, rateLegal r = true ∧ sr = r.toB64
  /-- The output buffer is in its canonical form. -/
  outCanonical : s.out.wf
  /-- R148: every value written to OUT is finite. -/
  outFinite : ∀ a ∈ s.out, a.value.isFinite = true
  /-- Only commands are pending: a host can issue nothing else (R63, R68). -/
  commands : ∀ p ∈ s.inbox, p.isCommand = true

/-- The states the core can reach from reset when the host issues any commands at any time (R162, R166). -/
inductive Reachable : State → Prop
  | reset : Reachable State.reset
  | issue {s : State} (p : Packet) : Reachable s → p.isCommand = true → Reachable (s.issue p)
  | step {s t : State} : Reachable s → step s = .next t → Reachable t

/-- What one message that is not refused does to the state, by its status byte (R125). -/
def eventEffect (s : State) (e : Event) : State :=
  if e.status = 0x80#8 then
    (if s.currentNote = some e.data1 then { s with currentNote := none } else s)
  else if e.status = 0x90#8 then
    { s with currentNote := some e.data1, noteDuration := B64.zero, frequency := pitchToFreq e.data1 }
  else s

/-- The NOTE_ON and NOTE_OFF messages an instruction delivers, in order (R61, R120). -/
def noteMessages : Instr → List Event
  | .handleEvents events => events.filter fun e => e.status == 0x80#8 || e.status == 0x90#8
  | .noteOff note velocity => [⟨0x80#8, note, velocity⟩]
  | .noteOn note velocity => [⟨0x90#8, note, velocity⟩]
  | .setSampleRate _ => []
  | .render _ _ => []
  | .ignored _ _ _ => []
  | .pitchToFreq _ => []
  | .changeFrequency _ => []
  | .nextSample => []
  | .nextSampleSine => []
  | .nextSampleSaw => []
  | .harmonicCount => []
  | .phaseAdvance => []

/-- Instructions run one after another, stopping where one answers no next state (R49, R162). -/
def execAll : List Instr → State → Host.Outcome State Fault Refusal
  | [], s => .next s
  | i :: rest, s =>
    match exec i s with
    | .next t => execAll rest t
    | .fault f => .fault f
    | .refused r => .refused r

/-- A run: a list of commands applied to the reset state (R166). -/
def runOf (commands : List Packet) : Host.Outcome State Fault Refusal :=
  Host.Core.run Sys2Proof.core commands.length (State.reset.setInbox commands)

/-- A run a claim may speak of: it ends with the mark clear (R33, R166). -/
def CleanRun (commands : List Packet) (t : State) : Prop :=
  runOf commands = .next t ∧ t.refused = false

end Sys2Proof.Machine
end

