-- ==== Sys2Proof/Certificates/Slice0/Obligations.lean ====
section
/-!
DEFINITION. The statements for the provers. Each docstring names the rule or section of spec/ it rests on, and the log
entry where it rests on a choice of the model or on a decision the spec marks as its own.
-/

open Sys2Proof Sys2Proof.Machine

/-! ### Reset, fetching and the end of a run -/

/-- 70_reset_and_hazards.md section 1: the values after reset. The duration, the phase, the UNSET rate and the mark are
the spec's decisions D13, D12, D9 and D22; the empty buffer, inbox and returned value are log entries 7, 9, 10, 15. -/
def Obligations.ResetLeavesTheseValues : Prop :=
  State.reset.frequency = ⟨0#64⟩ ∧ State.reset.phase = ⟨0#64⟩ ∧ State.reset.currentNote = none ∧
  State.reset.noteDuration = ⟨0#64⟩ ∧ State.reset.sampleRate = none ∧ State.reset.refused = false ∧
  State.reset.refusal = none ∧ State.reset.sounding = false ∧ State.reset.returned = .nothing ∧
  State.reset.inbox = [] ∧ ∀ c n, State.reset.out.read c n = none

/-- 41_oscillator.md section 4: the reset state meets the invariant of reachable states. -/
def Obligations.ResetMeetsInvariant : Prop := Inv State.reset

/-- A step takes the oldest transaction, decodes it and runs it on the state without it (log entry 7). -/
def Obligations.StepRunsTheDecodedInstruction : Prop :=
  ∀ (s : State) (p : Packet) (rest : List Packet) (i : Instr),
    s.refused = false → s.inbox = p :: rest → decode p = .ok i → WellFormed i →
      step s = exec i { s with inbox := rest }

/-- The model's choice, log entry 7: a step with no transaction pending answers the same state. The spec has no step
without a command; it says that between commands the core is idle and keeps every register (60_exceptions.md section 5,
decision D26). -/
def Obligations.WaitingCoreKeepsEverything : Prop :=
  ∀ s : State, s.refused = false → s.inbox = [] → step s = .next s

/-- 60_exceptions.md section 1, 44_host_commands.md (D22): after a refusal the run has ended. That `step` then stops by
a name of its own is log entry 10. -/
def Obligations.RefusedRunTakesNoStep : Prop :=
  ∀ s : State, s.refused = true → step s = .refused .runEnded

/-- 44_host_commands.md (D18): an unknown tag is refused as BAD_COMMAND before any operand is looked at; nothing but
the mark and its record is written. That the refused command is a next state is log entry 10; the inbox is log entry 7. -/
def Obligations.UnknownTagIsBadCommand : Prop :=
  ∀ (s : State) (tag : Byte) (operands : List Nat) (rest : List Packet),
    s.refused = false → s.inbox = .command tag operands :: rest →
    tag ≠ 0x01#8 → tag ≠ 0x02#8 → tag ≠ 0x03#8 →
      step s = .next { s with inbox := rest, refused := true, refusal := some (.badCommand tag) }

/-- Every instruction ends in a next state: Done or Refused (00_scope.md section 5, decision D22). The model's choices in
it: a refused command is a next state with the mark set (log entry 10), there is no fault (log entry 19), and an internal
operation outside its domain completes, refused or with a free value (log entries 11 to 14). -/
def Obligations.EveryInstructionAnswersANextState : Prop :=
  ∀ (i : Instr) (s : State), ∃ t, exec i s = .next t

/-! ### Encoding -/

/-- Decoding the packet of a well-formed instruction gives it back, with every operand at every value. The packets of
events and internal operations are log entry 8, the form of the operands log entry 16. -/
def Obligations.DecodeOfEncodeIsTheInstruction : Prop :=
  ∀ i : Instr, WellFormed i → decode (encode i) = .ok i

/-- What decodes at all is well formed, and encodes to the packet it came from: each packet has one meaning
(log entries 8 and 16 for the packets' form). -/
def Obligations.EncodeOfDecodeIsThePacket : Prop :=
  ∀ (p : Packet) (i : Instr), decode p = .ok i → WellFormed i ∧ encode i = p

/-- R61: the status byte alone selects the kind, by comparing all 8 bits. -/
def Obligations.StatusByteAloneSelectsTheEvent : Prop :=
  ∀ status data1 data2 : Byte,
    (status = 0x80#8 → decode (.event status data1 data2) = .ok (.noteOff data1 data2)) ∧
    (status = 0x90#8 → decode (.event status data1 data2) = .ok (.noteOn data1 data2)) ∧
    (status ≠ 0x80#8 → status ≠ 0x90#8 → decode (.event status data1 data2) = .ok (.ignored status data1 data2))

/-- Words written out from the encodings of 30_encoding.md and the programs of 95_test_vectors.md. How a table word is
numbered is log entry 17, the form of the operands log entry 16. -/
def Obligations.TableWordsDecodeAsWritten : Prop :=
  decodeTableWord 24 0b100100000100010101000000 = some (.noteOn 69#8 0x40#8) ∧
  decodeTableWord 24 0b100000000011110000000000 = some (.noteOff 60#8 0#8) ∧
  decodeTableWord 24 0b101100000000011101100100 = some (.ignored 0xB0#8 7#8 100#8) ∧
  decode (.command 0x01#8 [0x472C4400]) = .ok (.setSampleRate ⟨0x472C4400#32⟩) ∧
  decode (.command 0x02#8 [1, 0x90, 0x45, 0x40]) = .ok (.handleEvents [⟨0x90#8, 0x45#8, 0x40#8⟩]) ∧
  decode (.command 0x03#8 [4, 2]) = .ok (.render 4 2)

/-! ### Host commands -/

/-- 44_host_commands.md (D8, D7): a finite positive rate is widened into the sample rate register and nothing else is
written. -/
def Obligations.SetSampleRateStoresTheWidenedRate : Prop :=
  ∀ (rate : B32) (s : State), rate.isFinite = true → rate.positive = true →
    exec (.setSampleRate rate) s = .next { s with sampleRate := some rate.toB64 }

/-- 44_host_commands.md (D8, D22): any other rate is refused and writes no state but the mark and its record (log entry
10). -/
def Obligations.SetSampleRateRefusesAnyOtherRate : Prop :=
  ∀ (rate : B32) (s : State), ¬ (rate.isFinite = true ∧ rate.positive = true) →
    exec (.setSampleRate rate) s = .next { s with refused := true, refusal := some (.srInvalid rate) }

/-- 00_scope.md section 5: widening a finite binary32 keeps its sign and its exact value. -/
def Obligations.WideningIsExact : Prop :=
  ∀ r : B32, r.isFinite = true →
    r.toB64.isFinite = true ∧ r.toB64.neg = r.neg ∧ r.toB64.units = r.units * 2 ^ 925

/-- R120: a batch applies each message, in list order, by decoding it and running the selected operation: a batch with
one message more does what that operation does in the state the batch before it left. Where that last message is refused
the two records differ in the message's number, so the states are compared without the record (the number and the record
are the model's bookkeeping, log entries 8 and 10). -/
def Obligations.EventsAreAppliedInListOrder : Prop :=
  (∀ s : State, exec (.handleEvents []) s = .next s) ∧
  ∀ (events : List Event) (e : Event) (s : State),
    (∀ b ∈ events, b.status = 0x90#8 → b.data1.toNat ≤ 127) →
    ∃ i t u v, decode (.event e.status e.data1 e.data2) = .ok i ∧ exec (.handleEvents events) s = .next t ∧
      exec i t = .next u ∧ exec (.handleEvents (events ++ [e])) s = .next v ∧
      { v with refusal := none } = { u with refusal := none } ∧
      ((e.status = 0x90#8 → e.data1.toNat ≤ 127) → v = u)

/-- 44_host_commands.md and 42_note_state.md: a batch without a NOTE_ON above 127 applies each message in list order
(its effects on the frequency and the duration at a NOTE_OFF are D13 and D14). -/
def Obligations.HandleEventsAppliesTheBatchInOrder : Prop :=
  ∀ (events : List Event) (s : State),
    (∀ e ∈ events, e.status = 0x90#8 → e.data1.toNat ≤ 127) →
      exec (.handleEvents events) s = .next (events.foldl eventEffect s)

/-- 44_host_commands.md and 60_exceptions.md (D19, D22): the first NOTE_ON above 127 ends the batch; the messages before
it stay applied, its index and bytes are recorded (log entry 10), and the rest are skipped. -/
def Obligations.HandleEventsStopsAtTheRefusedEvent : Prop :=
  ∀ (before after : List Event) (e : Event) (s : State),
    (∀ b ∈ before, b.status = 0x90#8 → b.data1.toNat ≤ 127) →
    e.status = 0x90#8 → 127 < e.data1.toNat →
      exec (.handleEvents (before ++ e :: after)) s =
        .next { before.foldl eventEffect s with
                refused := true, refusal := some (.noteRange before.length e) }

/-- 44_host_commands.md: a batch, refused or not, leaves the phase, the sample rate, every slot of OUT, the returned
value and the inbox alone (the last three are log entries 15, 9 and 7). -/
def Obligations.HandleEventsFrame : Prop :=
  ∀ (events : List Event) (s : State), ∃ t, exec (.handleEvents events) s = .next t ∧
    t.phase = s.phase ∧ t.sampleRate = s.sampleRate ∧ t.returned = s.returned ∧ t.inbox = s.inbox ∧
    (∀ c n, t.out.read c n = s.out.read c n) ∧
    ((∀ e ∈ events, e.status ≠ 0x80#8 ∧ e.status ≠ 0x90#8) → t = s)

/-- 43_renderer.md (D17 for the sign of the zero): an Idle block is +0.0 in every channel and changes no register. That
slots outside the block still read as before is log entry 15. -/
def Obligations.IdleRenderWritesZeros : Prop :=
  ∀ (numSamples numChannels : Nat) (s : State), s.currentNote = none →
    ∃ t, exec (.render numSamples numChannels) s = .next t ∧ t = { s with out := t.out } ∧
      ∀ c n, t.out.read c n =
        if c < numChannels ∧ n < numSamples then some ⟨0x00000000#32⟩ else s.out.read c n

/-- 43_renderer.md (D13, D17): a Sounding block. Sample `n` of every channel is the value of the `(n+1)`-th NEXT_SAMPLE,
converted; the phase advances once per sample, the duration counts them, and nothing else is written (log entry 15 for
the slots outside the block). -/
def Obligations.SoundingRenderWritesTheSamples : Prop :=
  ∀ (numSamples numChannels : Nat) (s : State) (note : Byte) (sr : B64),
    s.currentNote = some note → s.sampleRate = some sr →
    ∃ t, exec (.render numSamples numChannels) s = .next t ∧
      t = { s with phase := t.phase, noteDuration := t.noteDuration, out := t.out } ∧
      t.phase = ((phaseAdvance sr)^[numSamples] s).phase ∧
      t.noteDuration = (fun d => B64.add d B64.oneValue)^[numSamples] s.noteDuration ∧
      ∀ c n, t.out.read c n =
        if c < numChannels ∧ n < numSamples then
          some (nextSample sr ((phaseAdvance sr)^[n] s)).1.toB32
        else s.out.read c n

/-- 43_renderer.md (D9, D22): a Sounding block of at least one sample is refused while the rate is UNSET, before any slot
or register is written (log entry 10). -/
def Obligations.SoundingRenderRefusedWithoutRate : Prop :=
  ∀ (numSamples numChannels : Nat) (s : State) (note : Byte),
    s.currentNote = some note → s.sampleRate = none → 0 < numSamples →
      exec (.render numSamples numChannels) s =
        .next { s with refused := true, refusal := some (.srUnset (some numSamples)) }

/-- 43_renderer.md (D21): an empty block changes nothing, with or without a rate; with no channels a Sounding block
writes no slot and still advances the phase and the duration. -/
def Obligations.EmptyBlocksAndZeroChannels : Prop :=
  (∀ (numChannels : Nat) (s : State), exec (.render 0 numChannels) s = .next s) ∧
  ∀ (numSamples : Nat) (s : State) (note : Byte) (sr : B64),
    s.currentNote = some note → s.sampleRate = some sr →
      exec (.render numSamples 0) s =
        .next { s with phase := ((phaseAdvance sr)^[numSamples] s).phase,
                       noteDuration := (fun d => B64.add d B64.oneValue)^[numSamples] s.noteDuration }

/-- 43_renderer.md on R143: every channel holds the identical sample sequence, and (the spec's own inference) the channel
count does not affect how far the phase advances. -/
def Obligations.ChannelsAreBitIdentical : Prop :=
  ∀ (numSamples numChannels otherChannels : Nat) (s : State),
    (s.currentNote = none ∨ s.sampleRate ≠ none) →
    ∃ t u, exec (.render numSamples numChannels) s = .next t ∧
      exec (.render numSamples otherChannels) s = .next u ∧ t.phase = u.phase ∧
      ∀ n, n < numSamples → ∃ v, ∀ c, c < numChannels → t.out.read c n = some v

/-- 43_renderer.md section on R142: a block continues the phase where the previous Sounding block left it. Rendering `a`
and then `b` samples leaves the registers of rendering `a + b`, and the second block's samples are the long block's
from `a` on. -/
def Obligations.BlocksContinueThePhase : Prop :=
  ∀ (a b numChannels : Nat) (s : State) (note : Byte) (sr : B64),
    s.currentNote = some note → s.sampleRate = some sr →
    ∃ t u w, exec (.render a numChannels) s = .next t ∧ exec (.render b numChannels) t = .next u ∧
      exec (.render (a + b) numChannels) s = .next w ∧
      u.phase = w.phase ∧ u.noteDuration = w.noteDuration ∧ u.frequency = w.frequency ∧
      u.currentNote = w.currentNote ∧
      ∀ c n, c < numChannels → n < b → u.out.read c n = w.out.read c (a + n)

/-- 43_renderer.md section on R148, from the invariant (its frequency bound rests on log entry 2): every value a block
writes is finite. -/
def Obligations.RenderedSamplesAreFinite : Prop :=
  ∀ (numSamples numChannels : Nat) (s : State), Inv s → (s.currentNote = none ∨ s.sampleRate ≠ none) →
    ∃ t, exec (.render numSamples numChannels) s = .next t ∧
      ∀ c n, c < numChannels → n < numSamples → ∃ v, t.out.read c n = some v ∧ v.isFinite = true

/-- 10_state.md on R25, 60_exceptions.md on R179 (D13): the duration rises by exactly one per Sounding sample up to
`2^53`, and stays there. -/
def Obligations.DurationCountsSamplesAndSaturates : Prop :=
  ∀ (k numSamples numChannels : Nat) (s : State) (note : Byte) (sr : B64),
    s.currentNote = some note → s.sampleRate = some sr → k ≤ 2 ^ 53 → s.noteDuration = B64.ofInt k →
    ∃ t, exec (.render numSamples numChannels) s = .next t ∧
      t.noteDuration = B64.ofInt ((min (k + numSamples) (2 ^ 53) : Nat) : Int)

/-! ### Events -/

/-- 42_note_state.md (D12 for the phase): NOTE_ON of a note in 0..127. -/
def Obligations.NoteOnStartsTheNote : Prop :=
  ∀ (note velocity : Byte) (s : State), note.toNat ≤ 127 →
    exec (.noteOn note velocity) s =
      .next { s with currentNote := some note, noteDuration := ⟨0#64⟩, frequency := pitchToFreq note }

/-- 42_note_state.md (D6, D22; index 0 of a batch of one is log entry 8): NOTE_ON above 127 is refused and writes no
state but the mark and its record (log entry 10). -/
def Obligations.NoteOnAbove127IsRefused : Prop :=
  ∀ (note velocity : Byte) (s : State), 127 < note.toNat →
    exec (.noteOn note velocity) s =
      .next { s with refused := true, refusal := some (.noteRange 0 ⟨0x90#8, note, velocity⟩) }

/-- 42_note_state.md (D13, D14 for what is kept): NOTE_OFF ends the note only if it is the one sounding. -/
def Obligations.NoteOffEndsOnlyTheSoundingNote : Prop :=
  ∀ (note velocity : Byte) (s : State),
    (s.currentNote = some note → exec (.noteOff note velocity) s = .next { s with currentNote := none }) ∧
    (s.currentNote ≠ some note → exec (.noteOff note velocity) s = .next s)

/-- R123: a message with any other status byte writes no state; alone or in a batch. -/
def Obligations.IgnoredMessageChangesNothing : Prop :=
  ∀ (status data1 data2 : Byte) (s : State), status ≠ 0x80#8 → status ≠ 0x90#8 →
    decode (.event status data1 data2) = .ok (.ignored status data1 data2) ∧
    exec (.ignored status data1 data2) s = .next s ∧
    exec (.handleEvents [⟨status, data1, data2⟩]) s = .next s

/-- 42_note_state.md on R124 (the clause on velocity 0 is the spec's own inference): `data2` has no effect. Two batches
that differ only in `data2` leave the same state but for the bytes a refusal
records (the model's bookkeeping), and a NOTE_ON with velocity 0 starts a note like any other. -/
def Obligations.VelocityHasNoEffect : Prop :=
  (∀ (events others : List Event) (s : State),
    events.map (fun e => (e.status, e.data1)) = others.map (fun e => (e.status, e.data1)) →
    ∃ t u, exec (.handleEvents events) s = .next t ∧ exec (.handleEvents others) s = .next u ∧
      { t with refusal := none } = { u with refusal := none }) ∧
  ∀ (note velocity : Byte) (s : State), note.toNat ≤ 127 →
    exec (.noteOn note 0#8) s = exec (.noteOn note velocity) s ∧
    ∃ t, exec (.noteOn note 0#8) s = .next t ∧ t.currentNote = some note

/-- R126: note stealing, over any commands the host issues: RENDER, SET_SAMPLE_RATE, and the messages in any number of
batches, with ignored messages anywhere between. `execAll` runs the commands one after another, and `noteMessages` picks
out the NOTE_ON and NOTE_OFF messages they deliver. If these are NOTE_ON(a), NOTE_ON(b), NOTE_OFF(a) with a ≠ b, and then
none that is a NOTE_ON or a NOTE_OFF(b), the state is Sounding(b). One more NOTE_OFF(b) leaves Idle, and one more
NOTE_ON(c) leaves Sounding(c). NOTE_ON(a), NOTE_OFF(a) leaves Idle. A run
is spoken of only if it ends with the mark clear (R166). -/
def Obligations.NoteStealingIsKept : Prop :=
  ∀ (a b v1 v2 v3 v4 : Byte) (later : List Event) (commands : List Instr) (s : State),
    a ≠ b → a.toNat ≤ 127 → b.toNat ≤ 127 →
    (∀ e ∈ later, e.status ≠ 0x90#8 ∧ (e.status = 0x80#8 → e.data1 ≠ b)) →
    (∀ i ∈ commands, (encode i).isCommand = true) →
    ∃ t, execAll commands s = .next t ∧ (t.refused = false →
      (commands.flatMap noteMessages = [⟨0x90#8, a, v1⟩, ⟨0x90#8, b, v2⟩, ⟨0x80#8, a, v3⟩] ++ later →
        t.noteState = .sounding b ∧ t.frequency = pitchToFreq b) ∧
      (commands.flatMap noteMessages =
          [⟨0x90#8, a, v1⟩, ⟨0x90#8, b, v2⟩, ⟨0x80#8, a, v3⟩] ++ later ++ [⟨0x80#8, b, v4⟩] →
        t.noteState = .idle) ∧
      (∀ c : Byte, c.toNat ≤ 127 →
        commands.flatMap noteMessages =
          [⟨0x90#8, a, v1⟩, ⟨0x90#8, b, v2⟩, ⟨0x80#8, a, v3⟩] ++ later ++ [⟨0x90#8, c, v4⟩] →
        t.noteState = .sounding c) ∧
      (commands.flatMap noteMessages = [⟨0x90#8, a, v1⟩, ⟨0x80#8, a, v2⟩] → t.noteState = .idle))

/-- R24: Idle and Sounding(n) are functions of the current note. NOTE_ON sets the flag, a matching NOTE_OFF clears it,
RENDER reads it (only a Sounding block runs NEXT_SAMPLE), and it is clear at reset. -/
def Obligations.SoundingFlagFollowsTheNote : Prop :=
  (∀ s : State, (s.noteState = .idle ↔ s.currentNote = none) ∧
    (s.sounding = false ↔ s.currentNote = none) ∧
    ∀ n, s.noteState = .sounding n ↔ s.currentNote = some n) ∧
  State.reset.sounding = false ∧
  (∀ (note velocity : Byte) (s : State), note.toNat ≤ 127 →
    ∃ t, exec (.noteOn note velocity) s = .next t ∧ t.sounding = true) ∧
  (∀ (note velocity : Byte) (s : State), s.currentNote = some note →
    ∃ t, exec (.noteOff note velocity) s = .next t ∧ t.sounding = false) ∧
  ∀ (numSamples numChannels : Nat) (s : State) (sr : B64), s.sampleRate = some sr →
    ∃ t, exec (.render numSamples numChannels) s = .next t ∧
      t.phase = if s.sounding then ((phaseAdvance sr)^[numSamples] s).phase else s.phase

/-! ### The pitch converter -/

/-- 40_pitch_converter.md (D5, D15): for a pitch in 0..127 the value handed back is `EXP2((pitch-69)/12.0) × 440.0`, and
nothing else is written. It is the frequency NOTE_ON writes. A pitch above 127 hands back some value (log entry 12); where
the value stands is log entry 9. -/
def Obligations.PitchToFreqHandsBackTheFrequency : Prop :=
  ∀ (pitch : Byte) (s : State), ∃ v, exec (.pitchToFreq pitch) s = .next { s with returned := .float v } ∧
    v = pitchToFreq pitch ∧
    (pitch.toNat ≤ 127 →
      v = B64.mul (Config.exp2 (B64.div (B64.ofInt ((pitch.toNat : Int) - 69)) ⟨0x4028000000000000#64⟩))
            ⟨0x407B800000000000#64⟩)

/-- 40_pitch_converter.md on R83, by EXP2_INT (D4): the multiples of 12 away from 69 give `440.0 × 2^k` exactly, so 57, 69
and 81 give 220.0, 440.0 and 880.0. -/
def Obligations.PitchVectorsAreExact : Prop :=
  (∀ k : Int, -5 ≤ k → k ≤ 4 → ∀ s : State,
    exec (.pitchToFreq (BitVec.ofInt 8 (69 + 12 * k))) s =
      .next { s with returned := .float (B64.ofRatio false (440 * 2 ^ (1074 + k).toNat) 1) }) ∧
  pitchToFreq 57#8 = ⟨0x406B800000000000#64⟩ ∧ pitchToFreq 69#8 = ⟨0x407B800000000000#64⟩ ∧
  pitchToFreq 81#8 = ⟨0x408B800000000000#64⟩

/-- 40_pitch_converter.md on R82 (finite above only by log entry 2): over 0..127 the result is positive, finite and does
not decrease as the pitch rises. -/
def Obligations.PitchToFreqIsPositiveFiniteMonotone : Prop :=
  ∀ a b : Byte, a.toNat ≤ b.toNat → b.toNat ≤ 127 →
    B64.lt ⟨0#64⟩ (pitchToFreq a) = true ∧ (pitchToFreq a).isFinite = true ∧
    B64.le (pitchToFreq a) (pitchToFreq b) = true

/-! ### The oscillator -/

/-- 41_oscillator.md (D12): CHANGE_FREQUENCY writes the frequency and keeps the phase. -/
def Obligations.ChangeFrequencyWritesTheFrequency : Prop :=
  ∀ (freq : B64) (s : State), exec (.changeFrequency freq) s = .next { s with frequency := freq }

/-- 41_oscillator.md (D15): PHASE_ADVANCE writes the phase alone. -/
def Obligations.PhaseAdvanceWritesThePhase : Prop :=
  ∀ (s : State) (sr : B64), s.sampleRate = some sr →
    exec .phaseAdvance s =
      .next { s with phase := fract (B64.add s.phase (B64.div s.frequency sr)) }

/-- 41_oscillator.md on R91: for a finite value not below 0.0, `fract` is `s - floor(s)`, exact, and in [0.0, 1.0). -/
def Obligations.FractIsExactAndBelowOne : Prop :=
  ∀ x : B64, x.isFinite = true → B64.le ⟨0#64⟩ x = true →
    fract x = B64.sub x (B64.floor x) ∧ (fract x).isFinite = true ∧ B64.le ⟨0#64⟩ (fract x) = true ∧
    B64.lt (fract x) B64.oneValue = true ∧ (fract x).units = x.units % 2 ^ 1074

/-- 41_oscillator.md on R94 (D7, D10): NEXT_SAMPLE is the variant the core contains. Log entry 18: a
variant runs as a step of its own. -/
def Obligations.NextSampleRunsTheVariant : Prop :=
  ∀ (s : State) (sr : B64), s.sampleRate = some sr →
    ∃ t, exec .nextSample s = .next t ∧
      exec (match Config.oscKind with | .sine => .nextSampleSine | .saw => .nextSampleSaw) s = .next t ∧
      t.phase = (phaseAdvance sr s).phase

/-- 41_oscillator.md on R95 (D15): the sine sample is `SIN(TWO_PI × phase)` at the phase before the advance.
It holds for either OSC_KIND (log entry 18). -/
def Obligations.NextSampleSineHandsBackTheSine : Prop :=
  ∀ (s : State) (sr : B64), s.sampleRate = some sr →
    exec .nextSampleSine s =
      .next { s with
        phase := fract (B64.add s.phase (B64.div s.frequency sr))
        returned := .float (Config.sin (B64.mul ⟨0x401921FB54442D18#64⟩ s.phase)) }

/-- 41_oscillator.md on R97 and R98 (D11, D15): above the guard the sample is the sum of harmonics `1 .. hc-1` in ascending
order from 0.0; otherwise it is 0.0; the phase advances either way. It holds for either OSC_KIND (log entry 18). -/
def Obligations.NextSampleSawHandsBackTheSum : Prop :=
  ∀ (s : State) (sr : B64), s.sampleRate = some sr →
    exec .nextSampleSaw s =
      .next { s with
        phase := fract (B64.add s.phase (B64.div s.frequency sr))
        returned := .float
          (if B64.lt ⟨0x3FF0000000000000#64⟩ s.frequency then
            (List.range (harmonicCount sr s.frequency - 1).toNat).foldl
              (fun out j =>
                let fi := B64.ofInt ((j + 1 : Nat) : Int)
                let t := Config.sin (B64.mul (B64.mul ⟨0x401921FB54442D18#64⟩ s.phase) fi)
                B64.add out (B64.div (B64.div t fi) ⟨0x4000000000000000#64⟩))
              ⟨0#64⟩
          else ⟨0#64⟩) }

/-- 60_exceptions.md on R173: the guard produces 0.0 for every frequency of at most `SAW_EPS_HZ`, whatever `OSC_KIND` is
(log entry 18). The threshold, and that the phase advances on a guarded sample, are 41_oscillator.md section 3 on R98
(decision D11). No instruction traps: each one, in every state, ends in a next state (log entries 10 and 19). -/
def Obligations.GuardedSawtoothIsSilent : Prop :=
  (∀ (s : State) (sr : B64), s.sampleRate = some sr → B64.le s.frequency Config.sawEpsHz = true →
    exec .nextSampleSaw s =
      .next { s with phase := (phaseAdvance sr s).phase, returned := .float ⟨0#64⟩ }) ∧
  ∀ (i : Instr) (s : State), ∃ t, exec i s = .next t

/-- 41_oscillator.md section 4 on R106: the sine has no state beyond the phase and the frequency: two cores that agree on
both, at one sample rate, give the same sample and go on agreeing. Both variants hold and advance the phase; the one the core does not contain runs
here too (log entry 18). -/
def Obligations.SineStateIsPhaseAndFrequency : Prop :=
  (∀ (s u : State) (sr : B64), s.sampleRate = some sr → u.sampleRate = some sr →
    s.phase = u.phase → s.frequency = u.frequency →
    ∃ t v, exec .nextSampleSine s = .next t ∧ exec .nextSampleSine u = .next v ∧
      t.returned = v.returned ∧ t.phase = v.phase ∧ t.frequency = v.frequency) ∧
  ∀ (s : State) (sr : B64), s.sampleRate = some sr →
    ∃ t v, exec .nextSampleSine s = .next t ∧ exec .nextSampleSaw s = .next v ∧
      t.phase = (phaseAdvance sr s).phase ∧ v.phase = (phaseAdvance sr s).phase

/-- 41_oscillator.md on R96 (D15): HARMONIC_COUNT hands back an integer and writes nothing else; for a legal rate and a
finite frequency above the guard it is `floor((sample_rate / 2.0) / frequency)`, not negative. -/
def Obligations.HarmonicCountHandsBackTheFloor : Prop :=
  ∀ (s : State) (sr : B64), s.sampleRate = some sr →
    ∃ h : Int, exec .harmonicCount s = .next { s with returned := .int h } ∧
      ∀ r : B32, rateLegal r = true → sr = r.toB64 → s.frequency.isFinite = true →
        B64.lt ⟨0x3FF0000000000000#64⟩ s.frequency = true →
          (B64.floor (B64.div (B64.div sr ⟨0x4000000000000000#64⟩) s.frequency)).toInt? = some h ∧ 0 ≤ h

/-- 41_oscillator.md on R101 (conflict C2): for a fixed legal rate the harmonic count does not rise with the frequency. -/
def Obligations.HarmonicCountDoesNotRise : Prop :=
  ∀ (r : B32) (f g : B64), rateLegal r = true → f.isFinite = true → g.isFinite = true →
    B64.lt Config.sawEpsHz f = true → B64.lt f g = true →
      harmonicCount r.toB64 g ≤ harmonicCount r.toB64 f

/-- Log entry 11: an internal operation that needs the sample rate is refused as SR_UNSET while the rate is UNSET, and
writes nothing but the mark and its record (log entry 10; log entry 18 for the two variants). -/
def Obligations.InternalOperationsNeedARate : Prop :=
  ∀ s : State, s.sampleRate = none →
    ∀ i ∈ [Instr.nextSample, .nextSampleSine, .nextSampleSaw, .harmonicCount, .phaseAdvance],
      exec i s = .next { s with refused := true, refusal := some (.srUnset none) }

/-- 43_renderer.md on R145, by SIN_BOUND (D3): at a legal phase a sine sample is finite and at most 1.0 in magnitude, for
either OSC_KIND (log entry 18). -/
def Obligations.SineSampleIsAtMostOne : Prop :=
  ∀ (s : State) (sr : B64), s.sampleRate = some sr → phaseLegal s.phase →
    ∃ t v, exec .nextSampleSine s = .next t ∧ t.returned = .float v ∧ v.isFinite = true ∧
      B64.le B64.minusOne v = true ∧ B64.le v B64.oneValue = true

/-- 70_reset_and_hazards.md on R192: at phase 0.0 the first sample of either oscillator is 0.0, of the one the core does not
contain too (log entry 18). -/
def Obligations.FirstSampleIsZero : Prop :=
  ∀ (s : State) (r : B32), rateLegal r = true → s.sampleRate = some r.toB64 → s.phase = ⟨0#64⟩ →
    s.frequency.isFinite = true →
    (∃ t, exec .nextSampleSine s = .next t ∧ t.returned = .float ⟨0#64⟩) ∧
    (∃ t, exec .nextSampleSaw s = .next t ∧ t.returned = .float ⟨0#64⟩) ∧
    ∃ t, exec .nextSample s = .next t ∧ t.returned = .float ⟨0#64⟩

/-! ### The whole machine -/

/-- The "written by" column of 10_state.md section 1, over every instruction: each register, the refused mark with its
record (D22), each slot of OUT and each of the model's own fields (log entries 7 and 9) changes only under the operations
named for it. The internal operations that refuse are log entry 11. -/
def Obligations.EachRegisterHasItsWriters : Prop :=
  ∀ (i : Instr) (s t : State), exec i s = .next t →
    (t.frequency = s.frequency ∨ (∃ n v, i = .noteOn n v) ∨ (∃ es, i = .handleEvents es) ∨
      ∃ f, i = .changeFrequency f) ∧
    (t.phase = s.phase ∨ (∃ n c, i = .render n c) ∨ i = .nextSample ∨ i = .nextSampleSine ∨
      i = .nextSampleSaw ∨ i = .phaseAdvance) ∧
    (t.currentNote = s.currentNote ∨ (∃ n v, i = .noteOn n v) ∨ (∃ n v, i = .noteOff n v) ∨
      ∃ es, i = .handleEvents es) ∧
    (t.noteDuration = s.noteDuration ∨ (∃ n v, i = .noteOn n v) ∨ (∃ es, i = .handleEvents es) ∨
      ∃ n c, i = .render n c) ∧
    (t.sampleRate = s.sampleRate ∨ ∃ r, i = .setSampleRate r) ∧
    ((∀ c n, t.out.read c n = s.out.read c n) ∨ ∃ n c, i = .render n c) ∧
    (t.returned = s.returned ∨ (∃ p, i = .pitchToFreq p) ∨ i = .nextSample ∨ i = .nextSampleSine ∨
      i = .nextSampleSaw ∨ i = .harmonicCount) ∧
    ((t.refused = s.refused ∧ t.refusal = s.refusal) ∨ (∃ r, i = .setSampleRate r) ∨
      (∃ es, i = .handleEvents es) ∨ (∃ n c, i = .render n c) ∨ (∃ n v, i = .noteOn n v) ∨ i = .nextSample ∨
      i = .nextSampleSine ∨ i = .nextSampleSaw ∨ i = .harmonicCount ∨ i = .phaseAdvance) ∧
    t.inbox = s.inbox

/-- 20_memory.md section 1 on R42: no instruction writes a slot of OUT but RENDER, and RENDER none outside the block it is
given. That such a slot still reads as before is log entry 15: the model keeps one buffer. -/
def Obligations.SlotsOutsideTheBlockAreKept : Prop :=
  ∀ (i : Instr) (s t : State), exec i s = .next t →
    ∀ c n, (∀ numSamples numChannels, i = .render numSamples numChannels →
      ¬ (c < numChannels ∧ n < numSamples)) → t.out.read c n = s.out.read c n

/-- 20_memory.md on R42: RENDER never reads OUT. Whatever the buffer held, the registers left and the values written are
the same. -/
def Obligations.RenderDoesNotReadTheBuffer : Prop :=
  ∀ (numSamples numChannels : Nat) (s : State) (other : OutBuffer),
    ∃ t u, exec (.render numSamples numChannels) s = .next t ∧
      exec (.render numSamples numChannels) { s with out := other } = .next u ∧
      { t with out := [] } = { u with out := [] } ∧
      ((s.currentNote = none ∨ s.sampleRate ≠ none) →
        ∀ c n, c < numChannels → n < numSamples → t.out.read c n = u.out.read c n)

/-- 60_exceptions.md on R171 (D22): whatever is refused, but for a batch whose earlier messages stay applied, writes
nothing but the mark and its record (log entry 10). -/
def Obligations.RefusalWritesOnlyTheMark : Prop :=
  ∀ (i : Instr) (s t : State), exec i s = .next t → s.refused = false → t.refused = true →
    (∀ es, i ≠ .handleEvents es) → ∃ r, t = { s with refused := true, refusal := some r }

/-- 10_state.md on R33 (D22): the mark is sticky; no instruction clears it. -/
def Obligations.RefusedMarkIsSticky : Prop :=
  ∀ (i : Instr) (s t : State), exec i s = .next t → s.refused = true → t.refused = true

/-- Log entry 15: every step keeps OUT's canonical form, from any state. -/
def Obligations.StepKeepsOutCanonical : Prop :=
  ∀ s t : State, s.out.wf → step s = .next t → t.out.wf

/-- 41_oscillator.md on R103 and R105, 43_renderer.md on R148: every step keeps the invariant of reachable
states (its frequency bound is log entry 2; that only commands are pending is log entry 8). -/
def Obligations.StepKeepsTheInvariant : Prop :=
  ∀ s t : State, Inv s → step s = .next t → Inv t

/-- 41_oscillator.md on R103 and R105: the invariant holds in every state the core reaches from reset, whatever commands
the host issues and whenever. It follows from the step's and rests on log entry 2 as that does. -/
def Obligations.ReachableStatesMeetTheInvariant : Prop :=
  ∀ s : State, Reachable s → Inv s

/-- 00_scope.md section 4 (D2): rounding with the exponent unbounded above gives a nearest magnitude, and an even one where
two are equally near. Overflow to infinity is in `ArithmeticRoundsOnce`. -/
def Obligations.RoundingIsToNearestTiesToEven : Prop :=
  ∀ p num den m : Nat, 0 < p → 0 < den →
    ((num : Int) - (magUnits p (roundMag p num den) * den : Nat)).natAbs ≤
      ((num : Int) - (magUnits p m * den : Nat)).natAbs ∧
    (m ≠ roundMag p num den →
      ((num : Int) - (magUnits p (roundMag p num den) * den : Nat)).natAbs =
        ((num : Int) - (magUnits p m * den : Nat)).natAbs → roundMag p num den % 2 = 0)

/-- 00_scope.md sections 4 and 5 (D2): `+`, `-`, `×`, `/`, the conversion of an integer and `to_b32` give, for finite
operands, the exact result rounded once: to the nearest value, to the even one of two equally near, to an infinity from
the middle between the largest finite value and the next power of two on. `floor` gives the exact integer. The exact
results are in units: `2^-1074`, and `2^-149` for binary32. The sign of a zero result is log entry 6 and not said here. -/
def Obligations.ArithmeticRoundsOnce : Prop :=
  (∀ a b : B64, a.isFinite = true → b.isFinite = true →
    (B64.add a b).RoundsTo (a.value + b.value) 1 ∧
    (B64.sub a b).RoundsTo (a.value - b.value) 1 ∧
    (B64.mul a b).RoundsTo (a.value * b.value) B64.one ∧
    (0 < b.mag → (B64.div a b).RoundsTo (a.value * B64.one * b.value.sign) b.units) ∧
    (B64.floor a).isFinite = true ∧ (B64.floor a).value = a.value / B64.one * B64.one ∧
    a.toB32.RoundsTo a.value B32.unitInB64) ∧
  ∀ k : Int, (B64.ofInt k).RoundsTo (k * B64.one) 1
end

