-- ==== Sys2Proof/Laws/Decode.lean ====
section
/-!
SUPPORT. The decoder on encoded messages and operands.
-/

namespace Sys2Proof

theorem byte_roundtrip (b : Byte) : b.toNat < 256 ∧ BitVec.ofNat 8 b.toNat = b :=
  ⟨b.isLt, by simp⟩

/-- The bytes of a list of messages are cut into the same messages. -/
theorem decodeMessages_encode (es : List Event) :
    decodeMessages (es.flatMap encodeMessage) = some es := by
  induction es with
  | nil => rfl
  | cons e es ih =>
    have h : (e :: es).flatMap encodeMessage =
        e.status.toNat :: e.data1.toNat :: e.data2.toNat :: es.flatMap encodeMessage := rfl
    rw [h, decodeMessages, if_pos ⟨e.status.isLt, e.data1.isLt, e.data2.isLt⟩, ih]
    simp

/-- Byte values that are cut into messages are the bytes of those messages. -/
theorem encode_decodeMessages : ∀ (bytes : List Nat) (es : List Event), decodeMessages bytes = some es →
    es.flatMap encodeMessage = bytes
  | [], es, h => by
    simp only [decodeMessages, Option.some.injEq] at h
    subst h; rfl
  | [_], es, h => by simp [decodeMessages] at h
  | [_, _], es, h => by simp [decodeMessages] at h
  | s :: d1 :: d2 :: rest, es, h => by
    rw [decodeMessages] at h
    split at h
    · rename_i hb
      rw [Option.map_eq_some_iff] at h
      obtain ⟨fs, hf, rfl⟩ := h
      have ih := encode_decodeMessages rest fs hf
      simp only [List.flatMap_cons, encodeMessage, ih, BitVec.toNat_ofNat, List.cons_append, List.nil_append]
      rw [Nat.mod_eq_of_lt hb.1, Nat.mod_eq_of_lt hb.2.1, Nat.mod_eq_of_lt hb.2.2]
    · cases h

end Sys2Proof
end

