-- ==== Sys2Proof/Laws/Out.lean ====
section
/-!
SUPPORT. The output buffer: a write is read back and leaves every other slot alone, and every operation keeps the
canonical form.
-/

namespace Sys2Proof.Machine

theorem Slot.isAt_iff (a : Slot) (c n : Nat) : a.isAt c n = true ↔ a.channel = c ∧ a.sample = n := by
  simp [Slot.isAt]

theorem Slot.before_iff (a b : Slot) :
    a.before b = true ↔ a.channel < b.channel ∨ (a.channel = b.channel ∧ a.sample < b.sample) := by
  simp [Slot.before]

theorem Slot.before_trans {a b d : Slot} (h1 : a.before b = true) (h2 : b.before d = true) :
    a.before d = true := by
  rw [Slot.before_iff] at *; omega

@[simp] theorem OutBuffer.read_nil (c n : Nat) : OutBuffer.read [] c n = none := rfl

theorem OutBuffer.read_cons (a : Slot) (o : OutBuffer) (c n : Nat) :
    OutBuffer.read (a :: o) c n = if a.isAt c n then some a.value else o.read c n := by
  unfold OutBuffer.read
  rw [List.find?_cons]
  cases a.isAt c n <;> rfl

/-- Reading a slot after a write: the value written there, the old value elsewhere. -/
theorem OutBuffer.read_write (o : OutBuffer) (c n c' n' : Nat) (v : B32) :
    (o.write c n v).read c' n' = if c' = c ∧ n' = n then some v else o.read c' n' := by
  induction o with
  | nil =>
    simp only [OutBuffer.write, OutBuffer.read_cons, Slot.isAt_iff, OutBuffer.read_nil]
    simp only [eq_comm]
  | cons a o ih =>
    unfold OutBuffer.write
    by_cases h1 : a.isAt c n = true
    · rw [if_pos h1, OutBuffer.read_cons, OutBuffer.read_cons]
      rw [Slot.isAt_iff] at h1
      simp only [Slot.isAt_iff, h1.1, h1.2]
      by_cases h : c = c' ∧ n = n'
      · have h' : c' = c ∧ n' = n := ⟨h.1.symm, h.2.symm⟩
        rw [if_pos h, if_pos h']
      · have h' : ¬ (c' = c ∧ n' = n) := fun e => h ⟨e.1.symm, e.2.symm⟩
        rw [if_neg h, if_neg h', if_neg h]
    · rw [if_neg h1]
      by_cases h2 : a.before ⟨c, n, v⟩ = true
      · rw [if_pos h2, OutBuffer.read_cons, OutBuffer.read_cons, ih]
        rw [Slot.isAt_iff] at h1
        by_cases h3 : a.isAt c' n' = true
        · have h' : ¬ (c' = c ∧ n' = n) := by
            rw [Slot.isAt_iff] at h3
            rintro ⟨rfl, rfl⟩
            exact h1 h3
          simp only [h3, if_true, if_neg h']
        · simp only [h3]; simp
      · rw [if_neg h2, OutBuffer.read_cons]
        by_cases h : c' = c ∧ n' = n
        · rw [if_pos h, if_pos ((Slot.isAt_iff _ _ _).2 ⟨h.1.symm, h.2.symm⟩)]
        · have h' : ¬ (Slot.isAt ⟨c, n, v⟩ c' n' = true) := fun e =>
            h ⟨((Slot.isAt_iff _ _ _).1 e).1.symm, ((Slot.isAt_iff _ _ _).1 e).2.symm⟩
          rw [if_neg h, if_neg h']

/-- A slot of a written buffer is the new one or an old one. -/
theorem OutBuffer.mem_write {o : OutBuffer} {c n : Nat} {v : B32} {b : Slot} (h : b ∈ o.write c n v) :
    b = ⟨c, n, v⟩ ∨ b ∈ o := by
  induction o with
  | nil => simpa [OutBuffer.write] using h
  | cons a o ih =>
    unfold OutBuffer.write at h
    split at h
    · rcases List.mem_cons.1 h with h | h
      · exact .inl h
      · exact .inr (List.mem_cons_of_mem _ h)
    · split at h
      · rcases List.mem_cons.1 h with h | h
        · exact .inr (h ▸ List.mem_cons_self)
        · rcases ih h with h | h
          · exact .inl h
          · exact .inr (List.mem_cons_of_mem _ h)
      · rcases List.mem_cons.1 h with h | h
        · exact .inl h
        · exact .inr h

/-- A write keeps the canonical form. -/
theorem OutBuffer.write_wf {o : OutBuffer} (h : o.wf) (c n : Nat) (v : B32) : (o.write c n v).wf := by
  induction o with
  | nil => simp [OutBuffer.write, OutBuffer.wf]
  | cons a o ih =>
    obtain ⟨ha, ho⟩ := List.pairwise_cons.1 h
    unfold OutBuffer.write
    split
    · rename_i h1
      refine List.pairwise_cons.2 ⟨fun b hb => ?_, ho⟩
      have := ha b hb
      rw [Slot.isAt_iff] at h1
      rw [Slot.before_iff] at this ⊢
      simp only
      omega
    · rename_i h1
      split
      · rename_i h2
        refine List.pairwise_cons.2 ⟨fun b hb => ?_, ih ho⟩
        rcases OutBuffer.mem_write hb with rfl | hb
        · exact h2
        · exact ha b hb
      · rename_i h2
        have hnew : Slot.before ⟨c, n, v⟩ a = true := by
          rw [Slot.before_iff] at h2 ⊢
          rw [Slot.isAt_iff] at h1
          simp only at h2 ⊢
          omega
        refine List.pairwise_cons.2 ⟨fun b hb => ?_, h⟩
        rcases List.mem_cons.1 hb with rfl | hb
        · exact hnew
        · exact Slot.before_trans hnew (ha b hb)

/-- A broadcast keeps the canonical form. -/
theorem OutBuffer.broadcast_wf {o : OutBuffer} (h : o.wf) (n : Nat) (v : B32) (k : Nat) :
    (o.broadcast n v k).wf := by
  induction k with
  | zero => exact h
  | succ k ih => exact OutBuffer.write_wf ih _ _ _

/-- Reading a slot after a broadcast: sample `n` of the channels below `k` holds the value, every other slot is as
before. -/
theorem OutBuffer.read_broadcast (o : OutBuffer) (n : Nat) (v : B32) (k c m : Nat) :
    (o.broadcast n v k).read c m = if c < k ∧ m = n then some v else o.read c m := by
  induction k with
  | zero => simp [OutBuffer.broadcast]
  | succ k ih =>
    simp only [OutBuffer.broadcast, OutBuffer.read_write, ih]
    by_cases hm : m = n
    · by_cases hc : c = k
      · simp [hm, hc]
      · have : c < k + 1 ↔ c < k := by omega
        simp [hm, hc, this]
    · simp [hm]

/-- A slot of a broadcast buffer holds the value or is an old one. -/
theorem OutBuffer.mem_broadcast {o : OutBuffer} {n k : Nat} {v : B32} {b : Slot}
    (h : b ∈ o.broadcast n v k) : b.value = v ∨ b ∈ o := by
  induction k with
  | zero => exact .inr h
  | succ k ih =>
    rcases OutBuffer.mem_write h with rfl | h
    · exact .inl rfl
    · exact ih h

end Sys2Proof.Machine
end

