-- ==== Sys2Proof/Laws/State.lean ====
section
/-!
SUPPORT. What each update of the state does to each of its fields: one lemma per field per update, so that no proof
unfolds a record update.
-/

namespace Sys2Proof.Machine

section
variable (s : State) (f : B64)
@[simp] theorem State.setFrequency_frequency : (s.setFrequency f).frequency = f := rfl
@[simp] theorem State.setFrequency_phase : (s.setFrequency f).phase = s.phase := rfl
@[simp] theorem State.setFrequency_currentNote : (s.setFrequency f).currentNote = s.currentNote := rfl
@[simp] theorem State.setFrequency_noteDuration : (s.setFrequency f).noteDuration = s.noteDuration := rfl
@[simp] theorem State.setFrequency_sampleRate : (s.setFrequency f).sampleRate = s.sampleRate := rfl
@[simp] theorem State.setFrequency_refused : (s.setFrequency f).refused = s.refused := rfl
@[simp] theorem State.setFrequency_refusal : (s.setFrequency f).refusal = s.refusal := rfl
@[simp] theorem State.setFrequency_out : (s.setFrequency f).out = s.out := rfl
@[simp] theorem State.setFrequency_returned : (s.setFrequency f).returned = s.returned := rfl
@[simp] theorem State.setFrequency_inbox : (s.setFrequency f).inbox = s.inbox := rfl
end

section
variable (s : State) (p : B64)
@[simp] theorem State.setPhase_frequency : (s.setPhase p).frequency = s.frequency := rfl
@[simp] theorem State.setPhase_phase : (s.setPhase p).phase = p := rfl
@[simp] theorem State.setPhase_currentNote : (s.setPhase p).currentNote = s.currentNote := rfl
@[simp] theorem State.setPhase_noteDuration : (s.setPhase p).noteDuration = s.noteDuration := rfl
@[simp] theorem State.setPhase_sampleRate : (s.setPhase p).sampleRate = s.sampleRate := rfl
@[simp] theorem State.setPhase_refused : (s.setPhase p).refused = s.refused := rfl
@[simp] theorem State.setPhase_refusal : (s.setPhase p).refusal = s.refusal := rfl
@[simp] theorem State.setPhase_out : (s.setPhase p).out = s.out := rfl
@[simp] theorem State.setPhase_returned : (s.setPhase p).returned = s.returned := rfl
@[simp] theorem State.setPhase_inbox : (s.setPhase p).inbox = s.inbox := rfl
end

section
variable (s : State) (n : Option Byte)
@[simp] theorem State.setNote_frequency : (s.setNote n).frequency = s.frequency := rfl
@[simp] theorem State.setNote_phase : (s.setNote n).phase = s.phase := rfl
@[simp] theorem State.setNote_currentNote : (s.setNote n).currentNote = n := rfl
@[simp] theorem State.setNote_noteDuration : (s.setNote n).noteDuration = s.noteDuration := rfl
@[simp] theorem State.setNote_sampleRate : (s.setNote n).sampleRate = s.sampleRate := rfl
@[simp] theorem State.setNote_refused : (s.setNote n).refused = s.refused := rfl
@[simp] theorem State.setNote_refusal : (s.setNote n).refusal = s.refusal := rfl
@[simp] theorem State.setNote_out : (s.setNote n).out = s.out := rfl
@[simp] theorem State.setNote_returned : (s.setNote n).returned = s.returned := rfl
@[simp] theorem State.setNote_inbox : (s.setNote n).inbox = s.inbox := rfl
end

section
variable (s : State) (d : B64)
@[simp] theorem State.setDuration_frequency : (s.setDuration d).frequency = s.frequency := rfl
@[simp] theorem State.setDuration_phase : (s.setDuration d).phase = s.phase := rfl
@[simp] theorem State.setDuration_currentNote : (s.setDuration d).currentNote = s.currentNote := rfl
@[simp] theorem State.setDuration_noteDuration : (s.setDuration d).noteDuration = d := rfl
@[simp] theorem State.setDuration_sampleRate : (s.setDuration d).sampleRate = s.sampleRate := rfl
@[simp] theorem State.setDuration_refused : (s.setDuration d).refused = s.refused := rfl
@[simp] theorem State.setDuration_refusal : (s.setDuration d).refusal = s.refusal := rfl
@[simp] theorem State.setDuration_out : (s.setDuration d).out = s.out := rfl
@[simp] theorem State.setDuration_returned : (s.setDuration d).returned = s.returned := rfl
@[simp] theorem State.setDuration_inbox : (s.setDuration d).inbox = s.inbox := rfl
end

section
variable (s : State) (r : B64)
@[simp] theorem State.setSampleRate_frequency : (s.setSampleRate r).frequency = s.frequency := rfl
@[simp] theorem State.setSampleRate_phase : (s.setSampleRate r).phase = s.phase := rfl
@[simp] theorem State.setSampleRate_currentNote : (s.setSampleRate r).currentNote = s.currentNote := rfl
@[simp] theorem State.setSampleRate_noteDuration : (s.setSampleRate r).noteDuration = s.noteDuration := rfl
@[simp] theorem State.setSampleRate_sampleRate : (s.setSampleRate r).sampleRate = some r := rfl
@[simp] theorem State.setSampleRate_refused : (s.setSampleRate r).refused = s.refused := rfl
@[simp] theorem State.setSampleRate_refusal : (s.setSampleRate r).refusal = s.refusal := rfl
@[simp] theorem State.setSampleRate_out : (s.setSampleRate r).out = s.out := rfl
@[simp] theorem State.setSampleRate_returned : (s.setSampleRate r).returned = s.returned := rfl
@[simp] theorem State.setSampleRate_inbox : (s.setSampleRate r).inbox = s.inbox := rfl
end

section
variable (s : State) (o : OutBuffer)
@[simp] theorem State.setOut_frequency : (s.setOut o).frequency = s.frequency := rfl
@[simp] theorem State.setOut_phase : (s.setOut o).phase = s.phase := rfl
@[simp] theorem State.setOut_currentNote : (s.setOut o).currentNote = s.currentNote := rfl
@[simp] theorem State.setOut_noteDuration : (s.setOut o).noteDuration = s.noteDuration := rfl
@[simp] theorem State.setOut_sampleRate : (s.setOut o).sampleRate = s.sampleRate := rfl
@[simp] theorem State.setOut_refused : (s.setOut o).refused = s.refused := rfl
@[simp] theorem State.setOut_refusal : (s.setOut o).refusal = s.refusal := rfl
@[simp] theorem State.setOut_out : (s.setOut o).out = o := rfl
@[simp] theorem State.setOut_returned : (s.setOut o).returned = s.returned := rfl
@[simp] theorem State.setOut_inbox : (s.setOut o).inbox = s.inbox := rfl
end

section
variable (s : State) (q : List Packet)
@[simp] theorem State.setInbox_frequency : (s.setInbox q).frequency = s.frequency := rfl
@[simp] theorem State.setInbox_phase : (s.setInbox q).phase = s.phase := rfl
@[simp] theorem State.setInbox_currentNote : (s.setInbox q).currentNote = s.currentNote := rfl
@[simp] theorem State.setInbox_noteDuration : (s.setInbox q).noteDuration = s.noteDuration := rfl
@[simp] theorem State.setInbox_sampleRate : (s.setInbox q).sampleRate = s.sampleRate := rfl
@[simp] theorem State.setInbox_refused : (s.setInbox q).refused = s.refused := rfl
@[simp] theorem State.setInbox_refusal : (s.setInbox q).refusal = s.refusal := rfl
@[simp] theorem State.setInbox_out : (s.setInbox q).out = s.out := rfl
@[simp] theorem State.setInbox_returned : (s.setInbox q).returned = s.returned := rfl
@[simp] theorem State.setInbox_inbox : (s.setInbox q).inbox = q := rfl
end

section
variable (s : State) (r : Returned)
@[simp] theorem State.give_frequency : (s.give r).frequency = s.frequency := rfl
@[simp] theorem State.give_phase : (s.give r).phase = s.phase := rfl
@[simp] theorem State.give_currentNote : (s.give r).currentNote = s.currentNote := rfl
@[simp] theorem State.give_noteDuration : (s.give r).noteDuration = s.noteDuration := rfl
@[simp] theorem State.give_sampleRate : (s.give r).sampleRate = s.sampleRate := rfl
@[simp] theorem State.give_refused : (s.give r).refused = s.refused := rfl
@[simp] theorem State.give_refusal : (s.give r).refusal = s.refusal := rfl
@[simp] theorem State.give_out : (s.give r).out = s.out := rfl
@[simp] theorem State.give_returned : (s.give r).returned = r := rfl
@[simp] theorem State.give_inbox : (s.give r).inbox = s.inbox := rfl
end

section
variable (s : State) (r : RefusalReason)
@[simp] theorem State.raise_frequency : (s.raise r).frequency = s.frequency := rfl
@[simp] theorem State.raise_phase : (s.raise r).phase = s.phase := rfl
@[simp] theorem State.raise_currentNote : (s.raise r).currentNote = s.currentNote := rfl
@[simp] theorem State.raise_noteDuration : (s.raise r).noteDuration = s.noteDuration := rfl
@[simp] theorem State.raise_sampleRate : (s.raise r).sampleRate = s.sampleRate := rfl
@[simp] theorem State.raise_refused : (s.raise r).refused = true := rfl
@[simp] theorem State.raise_refusal : (s.raise r).refusal = some r := rfl
@[simp] theorem State.raise_out : (s.raise r).out = s.out := rfl
@[simp] theorem State.raise_returned : (s.raise r).returned = s.returned := rfl
@[simp] theorem State.raise_inbox : (s.raise r).inbox = s.inbox := rfl
end

/-- Done keeps the new state, Refused marks the old one (R15, R171). -/
@[simp] theorem State.settle_ok (s t : State) : s.settle (.ok t) = t := rfl

@[simp] theorem State.settle_error (s : State) (r : RefusalReason) : s.settle (.error r) = s.raise r := rfl

end Sys2Proof.Machine
end

