-- ==== Sys2Proof/Laws/Render.lean ====
section
/-!
SUPPORT. What the oscillator's operations and the renderer do to the state: which fields they touch, the phase after
`n` samples as the `n`-fold iterate of PHASE_ADVANCE, and what every slot of OUT holds afterwards.
-/

namespace Sys2Proof.Machine

/-! ### One sample -/

/-- Exactly one PHASE_ADVANCE per NEXT_SAMPLE, whichever variant runs (R94). -/
theorem nextSample_state (sr : B64) (s : State) : (nextSample sr s).2 = phaseAdvance sr s := by
  unfold nextSample
  cases Config.oscKind <;> rfl

/-- A sample depends on the phase and the frequency alone. -/
theorem nextSample_congr {s t : State} (sr : B64) (hp : s.phase = t.phase) (hf : s.frequency = t.frequency) :
    (nextSample sr s).1 = (nextSample sr t).1 := by
  unfold nextSample nextSampleSine nextSampleSaw sineSample sawSample
  rw [hp, hf]
  cases Config.oscKind <;> rfl

/-- The next phase depends on the phase and the frequency alone. -/
theorem phaseAdvance_congr {s t : State} (sr : B64) (hp : s.phase = t.phase)
    (hf : s.frequency = t.frequency) : (phaseAdvance sr s).phase = (phaseAdvance sr t).phase := by
  simp [phaseAdvance, hp, hf]

section
variable (sr : B64) (s : State)
@[simp] theorem phaseAdvance_frequency : (phaseAdvance sr s).frequency = s.frequency := rfl
@[simp] theorem phaseAdvance_currentNote : (phaseAdvance sr s).currentNote = s.currentNote := rfl
@[simp] theorem phaseAdvance_noteDuration : (phaseAdvance sr s).noteDuration = s.noteDuration := rfl
@[simp] theorem phaseAdvance_sampleRate : (phaseAdvance sr s).sampleRate = s.sampleRate := rfl
@[simp] theorem phaseAdvance_refused : (phaseAdvance sr s).refused = s.refused := rfl
@[simp] theorem phaseAdvance_refusal : (phaseAdvance sr s).refusal = s.refusal := rfl
@[simp] theorem phaseAdvance_out : (phaseAdvance sr s).out = s.out := rfl
@[simp] theorem phaseAdvance_returned : (phaseAdvance sr s).returned = s.returned := rfl
@[simp] theorem phaseAdvance_inbox : (phaseAdvance sr s).inbox = s.inbox := rfl
end

@[simp] theorem phaseAdvance_iterate_frequency (sr : B64) (s : State) (n : Nat) :
    ((phaseAdvance sr)^[n] s).frequency = s.frequency := by
  induction n with
  | zero => rfl
  | succ n ih => rw [Function.iterate_succ_apply']; simpa using ih

/-! ### An Idle block -/

/-- An Idle block writes OUT and nothing else (R141). -/
theorem renderIdle_eq (nc : Nat) (s : State) (n : Nat) :
    renderIdle nc s n = s.setOut (renderIdle nc s n).out := by
  induction n with
  | zero => rfl
  | succ n ih =>
    simp only [renderIdle]
    rw [ih]
    rfl

theorem renderIdle_read (nc : Nat) (s : State) (n c m : Nat) :
    (renderIdle nc s n).out.read c m = if c < nc ∧ m < n then some B32.zero else s.out.read c m := by
  induction n with
  | zero => simp [renderIdle]
  | succ n ih =>
    simp only [renderIdle, State.setOut_out, OutBuffer.read_broadcast, ih]
    by_cases hc : c < nc
    · by_cases hm : m = n
      · simp [hc, hm]
      · have : m < n + 1 ↔ m < n := by omega
        simp [hc, hm, this]
    · simp [hc]

theorem renderIdle_wf {s : State} (h : s.out.wf) (nc n : Nat) : (renderIdle nc s n).out.wf := by
  induction n with
  | zero => exact h
  | succ n ih => exact OutBuffer.broadcast_wf ih _ _ _

/-! ### A Sounding block -/

/-- The registers a Sounding sample leaves alone, and its phase and duration. -/
theorem renderSample_fields (sr : B64) (nc n : Nat) (s : State) :
    (renderSample sr nc n s).frequency = s.frequency ∧
    (renderSample sr nc n s).phase = (phaseAdvance sr s).phase ∧
    (renderSample sr nc n s).currentNote = s.currentNote ∧
    (renderSample sr nc n s).noteDuration = B64.add s.noteDuration B64.oneValue ∧
    (renderSample sr nc n s).sampleRate = s.sampleRate ∧
    (renderSample sr nc n s).refused = s.refused ∧
    (renderSample sr nc n s).refusal = s.refusal ∧
    (renderSample sr nc n s).out = s.out.broadcast n (nextSample sr s).1.toB32 nc ∧
    (renderSample sr nc n s).returned = s.returned ∧
    (renderSample sr nc n s).inbox = s.inbox := by
  simp [renderSample, nextSample_state]

/-- A Sounding block leaves alone every register but the phase and the duration (R149). -/
theorem renderSounding_frame (sr : B64) (nc : Nat) (s : State) (n : Nat) :
    (renderSounding sr nc s n).frequency = s.frequency ∧
    (renderSounding sr nc s n).currentNote = s.currentNote ∧
    (renderSounding sr nc s n).sampleRate = s.sampleRate ∧
    (renderSounding sr nc s n).refused = s.refused ∧
    (renderSounding sr nc s n).refusal = s.refusal ∧
    (renderSounding sr nc s n).returned = s.returned ∧
    (renderSounding sr nc s n).inbox = s.inbox := by
  induction n with
  | zero => exact ⟨rfl, rfl, rfl, rfl, rfl, rfl, rfl⟩
  | succ n ih =>
    obtain ⟨h1, _, h3, _, h5, h6, h7, _, h9, h10⟩ := renderSample_fields sr nc n (renderSounding sr nc s n)
    obtain ⟨i1, i3, i5, i6, i7, i9, i10⟩ := ih
    exact ⟨h1.trans i1, h3.trans i3, h5.trans i5, h6.trans i6, h7.trans i7, h9.trans i9, h10.trans i10⟩

/-- The phase after `n` samples is the `n`-fold iterate of PHASE_ADVANCE (R104, R142). -/
theorem renderSounding_phase (sr : B64) (nc : Nat) (s : State) (n : Nat) :
    (renderSounding sr nc s n).phase = ((phaseAdvance sr)^[n] s).phase := by
  induction n with
  | zero => rfl
  | succ n ih =>
    rw [Function.iterate_succ_apply']
    have h := (renderSample_fields sr nc n (renderSounding sr nc s n)).2.1
    refine h.trans (phaseAdvance_congr sr ih ?_)
    rw [(renderSounding_frame sr nc s n).1, phaseAdvance_iterate_frequency]

/-- One is added to the duration for each sample (R144). -/
theorem renderSounding_duration (sr : B64) (nc : Nat) (s : State) (n : Nat) :
    (renderSounding sr nc s n).noteDuration = (fun d => B64.add d B64.oneValue)^[n] s.noteDuration := by
  induction n with
  | zero => rfl
  | succ n ih =>
    rw [Function.iterate_succ_apply', ← ih]
    exact (renderSample_fields sr nc n (renderSounding sr nc s n)).2.2.2.1

/-- Sample `m` of every channel is the `(m + 1)`-th NEXT_SAMPLE's value, converted (R142, R143, R145). -/
theorem renderSounding_read (sr : B64) (nc : Nat) (s : State) (n c m : Nat) :
    (renderSounding sr nc s n).out.read c m =
      if c < nc ∧ m < n then some (nextSample sr ((phaseAdvance sr)^[m] s)).1.toB32 else s.out.read c m := by
  induction n with
  | zero => simp [renderSounding]
  | succ n ih =>
    have h := (renderSample_fields sr nc n (renderSounding sr nc s n)).2.2.2.2.2.2.2.1
    have hv := nextSample_congr sr (renderSounding_phase sr nc s n)
      ((renderSounding_frame sr nc s n).1.trans (phaseAdvance_iterate_frequency sr s n).symm)
    show (renderSample sr nc n (renderSounding sr nc s n)).out.read c m = _
    rw [h, OutBuffer.read_broadcast, ih, hv]
    by_cases hc : c < nc
    · by_cases hm : m = n
      · subst hm; simp [hc]
      · have : m < n + 1 ↔ m < n := by omega
        simp [hc, hm, this]
    · simp [hc]

theorem renderSounding_wf {s : State} (h : s.out.wf) (sr : B64) (nc n : Nat) :
    (renderSounding sr nc s n).out.wf := by
  induction n with
  | zero => exact h
  | succ n ih =>
    show (renderSample sr nc n (renderSounding sr nc s n)).out.wf
    rw [(renderSample_fields sr nc n (renderSounding sr nc s n)).2.2.2.2.2.2.2.1]
    exact OutBuffer.broadcast_wf ih _ _ _

/-! ### RENDER's four cases -/

theorem render_idle {s : State} (h : s.currentNote = none) (ns nc : Nat) :
    render ns nc s = .ok (renderIdle nc s ns) := by
  simp [render, State.sounding, h]

theorem render_empty {s : State} (nc : Nat) : render 0 nc s = .ok s := by
  unfold render
  split <;> simp [renderIdle]

theorem render_sounding {s : State} {note : Byte} {sr : B64} (h : s.currentNote = some note)
    (hs : s.sampleRate = some sr) (ns nc : Nat) : render ns nc s = .ok (renderSounding sr nc s ns) := by
  unfold render
  simp only [State.sounding, h, Option.isSome_some, if_true, hs]
  split
  · rename_i h0; subst h0; rfl
  · rfl

theorem render_unset {s : State} {note : Byte} (h : s.currentNote = some note) (hs : s.sampleRate = none)
    {ns : Nat} (hn : 0 < ns) (nc : Nat) : render ns nc s = .error (.srUnset (some ns)) := by
  unfold render
  have : ¬ ns = 0 := by omega
  simp [State.sounding, h, hs, this]

end Sys2Proof.Machine
end

