-- ==== Sys2Proof/Laws/Exec.lean ====
section
/-!
SUPPORT. What the shared operations and the step can do, said once: the sample rate taken from the state, one message
and a batch of messages, and the cases of a step.
-/

namespace Sys2Proof.Machine

/-! ### Operations that take the sample rate -/

theorem State.withRate_some {s : State} {sr : B64} (h : s.sampleRate = some sr) (run : B64 → State) :
    s.withRate run = run sr := by
  unfold State.withRate; rw [h]

theorem State.withRate_none {s : State} (h : s.sampleRate = none) (run : B64 → State) :
    s.withRate run = s.raise (.srUnset none) := by
  unfold State.withRate; rw [h]

section
variable {s : State} {sr : B64} (h : s.sampleRate = some sr)
include h

theorem exec_nextSample : exec .nextSample s = .next (giveSample (nextSample sr s)) :=
  congrArg Host.Outcome.next (State.withRate_some h _)

theorem exec_nextSampleSine : exec .nextSampleSine s = .next (giveSample (nextSampleSine sr s)) :=
  congrArg Host.Outcome.next (State.withRate_some h _)

theorem exec_nextSampleSaw : exec .nextSampleSaw s = .next (giveSample (nextSampleSaw sr s)) :=
  congrArg Host.Outcome.next (State.withRate_some h _)

theorem exec_harmonicCount :
    exec .harmonicCount s = .next (s.give (.int (harmonicCount sr s.frequency))) :=
  congrArg Host.Outcome.next (State.withRate_some h _)

theorem exec_phaseAdvance : exec .phaseAdvance s = .next (phaseAdvance sr s) :=
  congrArg Host.Outcome.next (State.withRate_some h _)

end

/-- The harmonic sum as a left fold over the harmonic numbers (R97). -/
theorem sawSum_eq_foldl (wp : B64) (n : Nat) :
    sawSum wp n = (List.range n).foldl (fun out j => B64.add out (sawTerm wp (j + 1))) B64.zero := by
  induction n with
  | zero => rfl
  | succ n ih => rw [List.range_succ, List.foldl_append, ← ih]; rfl

/-! ### Messages -/

/-- A message that is no NOTE_ON above 127 is applied (R120, R125). -/
theorem applyEvent_legal (k : Nat) (e : Event) (s : State)
    (h : e.status = 0x90#8 → e.data1.toNat ≤ 127) : applyEvent k e s = .ok (eventEffect s e) := by
  unfold applyEvent eventEffect eventKind
  by_cases h1 : e.status = 0x80#8
  · simp only [h1, if_true]
    unfold noteOff
    split <;> rfl
  · by_cases h2 : e.status = 0x90#8
    · have hn : noteLegal e.data1 = true := by simpa [noteLegal] using h h2
      simp only [h2, if_true]
      unfold noteOn
      rw [if_pos hn]
      rfl
    · simp only [h1, h2, if_false]
      rfl

/-- A NOTE_ON above 127 is refused (R128). -/
theorem applyEvent_illegal (k : Nat) (e : Event) (s : State) (h1 : e.status = 0x90#8)
    (h2 : 127 < e.data1.toNat) : applyEvent k e s = .error (.noteRange k e) := by
  obtain ⟨a, b, c⟩ := e
  simp only at h1 h2
  subst h1
  have : noteLegal b = false := by simp [noteLegal]; exact h2
  simp [applyEvent, eventKind, noteOn, this]

/-- The messages before the first refused one are applied in order (R161). -/
theorem applyEvents_append (first rest : List Event) (k : Nat) (s : State)
    (h : ∀ e ∈ first, e.status = 0x90#8 → e.data1.toNat ≤ 127) :
    applyEvents k (first ++ rest) s =
      applyEvents (k + first.length) rest (first.foldl eventEffect s) := by
  induction first generalizing k s with
  | nil => rfl
  | cons e es ih =>
    rw [List.cons_append, applyEvents, applyEvent_legal k e s (h e List.mem_cons_self)]
    simp only [List.foldl_cons, List.length_cons]
    rw [ih _ _ fun e' h' => h e' (List.mem_cons_of_mem _ h')]
    congr 1
    omega

/-- What one message leaves alone, applied. -/
theorem eventEffect_frame (s : State) (e : Event) :
    (eventEffect s e).phase = s.phase ∧ (eventEffect s e).sampleRate = s.sampleRate ∧
    (eventEffect s e).refused = s.refused ∧ (eventEffect s e).refusal = s.refusal ∧
    (eventEffect s e).out = s.out ∧ (eventEffect s e).returned = s.returned ∧
    (eventEffect s e).inbox = s.inbox := by
  unfold eventEffect
  split
  · split <;> exact ⟨rfl, rfl, rfl, rfl, rfl, rfl, rfl⟩
  · split <;> exact ⟨rfl, rfl, rfl, rfl, rfl, rfl, rfl⟩

/-- A batch either is applied whole, or stops at a first NOTE_ON above 127. -/
theorem applyEvents_cases (events : List Event) (k : Nat) (s : State) :
    (applyEvents k events s = events.foldl eventEffect s ∧
      ∀ e ∈ events, e.status = 0x90#8 → e.data1.toNat ≤ 127) ∨
    ∃ first e rest, events = first ++ e :: rest ∧
      (∀ b ∈ first, b.status = 0x90#8 → b.data1.toNat ≤ 127) ∧ e.status = 0x90#8 ∧ 127 < e.data1.toNat ∧
      applyEvents k events s = (first.foldl eventEffect s).raise (.noteRange (k + first.length) e) := by
  induction events generalizing k s with
  | nil => exact .inl ⟨rfl, by simp⟩
  | cons e es ih =>
    by_cases hb : e.status = 0x90#8 ∧ 127 < e.data1.toNat
    · refine .inr ⟨[], e, es, rfl, by simp, hb.1, hb.2, ?_⟩
      rw [applyEvents, applyEvent_illegal k e s hb.1 hb.2]
      rfl
    · have hl : e.status = 0x90#8 → e.data1.toNat ≤ 127 := fun h => by
        by_contra hc
        exact hb ⟨h, by omega⟩
      rw [applyEvents, applyEvent_legal k e s hl]
      rcases ih (k + 1) (eventEffect s e) with ⟨h1, h2⟩ | ⟨first, b, rest, h1, h2, h3, h4, h5⟩
      · refine .inl ⟨h1, fun b hb' => ?_⟩
        rcases List.mem_cons.1 hb' with rfl | hb'
        · exact hl
        · exact h2 b hb'
      · refine .inr ⟨e :: first, b, rest, by rw [h1]; rfl, fun c hc => ?_, h3, h4, ?_⟩
        · rcases List.mem_cons.1 hc with rfl | hc
          · exact hl
          · exact h2 c hc
        · simp only [List.foldl_cons, List.length_cons]
          rw [h5]
          congr 2
          omega

/-- A batch does what its NOTE_ON and NOTE_OFF messages do: the others leave every state alone (R123). -/
theorem foldl_noteMessages (events : List Event) (s : State) :
    events.foldl eventEffect s = (noteMessages (.handleEvents events)).foldl eventEffect s := by
  simp only [noteMessages]
  induction events generalizing s with
  | nil => rfl
  | cons e es ih =>
    by_cases h : (e.status == 0x80#8 || e.status == 0x90#8) = true
    · rw [List.filter_cons, if_pos h]
      exact ih _
    · have he : eventEffect s e = s := by
        simp at h
        unfold eventEffect
        rw [if_neg h.1, if_neg h.2]
      rw [List.filter_cons, if_neg h, List.foldl_cons, he]
      exact ih _

/-- The note and the frequency after a message depend on the note and the frequency before it alone. -/
theorem eventEffect_congr {s u : State} (e : Event) (h1 : s.currentNote = u.currentNote)
    (h2 : s.frequency = u.frequency) :
    (eventEffect s e).currentNote = (eventEffect u e).currentNote ∧
      (eventEffect s e).frequency = (eventEffect u e).frequency := by
  unfold eventEffect
  rw [h1]
  split
  · split
    · exact ⟨rfl, h2⟩
    · exact ⟨h1, h2⟩
  · split
    · exact ⟨rfl, rfl⟩
    · exact ⟨h1, h2⟩

/-! ### Instructions one after another -/

@[simp] theorem execAll_nil (s : State) : execAll [] s = .next s := rfl

theorem execAll_cons {i : Instr} {s t : State} (h : exec i s = .next t) (rest : List Instr) :
    execAll (i :: rest) s = execAll rest t := by
  rw [execAll, h]

/-! ### A step -/

/-- A step that answers a next state either waits, or refuses an unknown tag, or runs a decoded instruction. -/
theorem step_cases {s t : State} (h : step s = .next t) :
    s.refused = false ∧
    ((s.inbox = [] ∧ t = s) ∨
      (∃ tag operands rest, s.inbox = .command tag operands :: rest ∧
        t = (s.setInbox rest).raise (.badCommand tag)) ∨
      ∃ p rest i, s.inbox = p :: rest ∧ decode p = .ok i ∧ exec i (s.setInbox rest) = .next t) := by
  unfold step at h
  have hr : s.refused = false := by
    by_contra hc
    have hc' : s.refused = true := by simpa using hc
    simp [State.fetch, hc'] at h
  refine ⟨hr, ?_⟩
  rcases hq : s.inbox with _ | ⟨p, rest⟩
  · have hf : s.fetch = .waiting := by simp [State.fetch, hr, hq]
    rw [hf] at h
    exact .inl ⟨rfl, by cases h; rfl⟩
  · have hf : s.fetch = .taken p (s.setInbox rest) := by simp [State.fetch, hr, hq]
    rw [hf] at h
    simp only at h
    split at h
    · rename_i i hi
      exact .inr (.inr ⟨p, rest, i, rfl, hi, h⟩)
    · rename_i e he
      cases e with
      | badCommand tag =>
        have hp : ∃ operands, p = .command tag operands := by
          cases p with
          | command tag' operands =>
            unfold decode at he
            simp only at he
            split at he
            · cases he; exact ⟨operands, rfl⟩
            · split at he <;> cases he
          | event a b c => cases he
          | invoke op operands =>
            unfold decode at he
            simp only at he
            split at he <;> cases he
        obtain ⟨operands, rfl⟩ := hp
        exact .inr (.inl ⟨tag, operands, rest, rfl, by cases h; rfl⟩)
      | badOperands tag => cases h
      | badInvoke op => cases h

/-- A command decodes to one of the three host commands. -/
theorem decode_command {tag : Byte} {operands : List Nat} {i : Instr}
    (h : decode (.command tag operands) = .ok i) :
    (∃ r, i = .setSampleRate r) ∨ (∃ es, i = .handleEvents es) ∨ ∃ n c, i = .render n c := by
  unfold decode decodeOperands at h
  simp only at h
  split at h
  · cases h
  · rename_i read hread
    split at h
    · rename_i j hj
      cases h
      split at hread
      · cases hread
        unfold decodeRate at hj
        split at hj
        · split at hj
          · cases hj; exact .inl ⟨_, rfl⟩
          · cases hj
        · cases hj
      · split at hread
        · cases hread
          unfold decodeBatch at hj
          split at hj
          · cases hj
          · split at hj
            · split at hj
              · cases hj; exact .inr (.inl ⟨_, rfl⟩)
              · cases hj
            · cases hj
        · split at hread
          · cases hread
            unfold decodeBlock at hj
            split at hj
            · cases hj; exact .inr (.inr ⟨_, _, rfl⟩)
            · cases hj
          · cases hread
    · cases h

end Sys2Proof.Machine
end

