-- ==== Sys2Proof/Laws/Rounding.lean ====
section
/-!
SUPPORT. What `magUnits` and `roundMag` do: magnitudes and units are ordered alike, rounding is monotone, a value that
is a magnitude's own rounds to it, and so a bound by a representable value survives rounding.
-/

namespace Sys2Proof

/-- Rounding a ratio to an integer, ties to even. -/
def roundNat (num d : Nat) : Nat := num / d + (if roundsUp (num / d) (num % d) d then 1 else 0)

theorem roundMag_eq (p num den : Nat) :
    roundMag p num den =
      roundShift p num den * 2 ^ p + roundNat num (den * 2 ^ roundShift p num den) := by
  simp [roundMag, roundNat, Nat.add_assoc]

theorem roundNat_le (num d : Nat) : roundNat num d ≤ num / d + 1 := by
  unfold roundNat; split <;> omega

theorem div_le_roundNat (num d : Nat) : num / d ≤ roundNat num d := by
  unfold roundNat; split <;> omega

theorem roundsUp_iff (q r d : Nat) : roundsUp q r d = true ↔ d < 2 * r ∨ (2 * r = d ∧ q % 2 = 1) := by
  simp [roundsUp]

theorem div_le_div_of_ratio {num d num' d' : Nat} (hd : 0 < d) (hd' : 0 < d') (h : num * d' ≤ num' * d) :
    num / d ≤ num' / d' := by
  rw [Nat.le_div_iff_mul_le hd']
  have h1 : num / d * d ≤ num := Nat.div_mul_le_self num d
  have h2 : num / d * d' * d ≤ num' * d := by
    calc num / d * d' * d = num / d * d * d' := by ring
      _ ≤ num * d' := Nat.mul_le_mul_right _ h1
      _ ≤ num' * d := h
  exact Nat.le_of_mul_le_mul_right h2 hd

/-- Rounding to an integer follows the order of the ratios. -/
theorem roundNat_mono {num d num' d' : Nat} (hd : 0 < d) (hd' : 0 < d') (h : num * d' ≤ num' * d) :
    roundNat num d ≤ roundNat num' d' := by
  have hq := div_le_div_of_ratio hd hd' h
  rcases Nat.lt_or_eq_of_le hq with hlt | heq
  · exact le_trans (roundNat_le num d) (le_trans hlt (div_le_roundNat num' d'))
  · have e1 := Nat.div_add_mod num d
    have e2 := Nat.div_add_mod num' d'
    have hr : num % d * d' ≤ num' % d' * d := by
      have : (d * (num / d) + num % d) * d' ≤ (d' * (num' / d') + num' % d') * d := by rw [e1, e2]; exact h
      rw [← heq] at this
      nlinarith
    unfold roundNat
    rw [heq]
    by_cases hu : roundsUp (num' / d') (num % d) d = true
    · have hu' : roundsUp (num' / d') (num' % d') d' = true := by
        rw [roundsUp_iff] at hu ⊢
        rcases hu with hu | ⟨hu, hodd⟩
        · left
          by_contra hc
          push Not at hc
          have : 2 * (num' % d' * d) ≤ d' * d := by nlinarith
          have : d * d' < 2 * (num % d) * d' := Nat.mul_lt_mul_of_pos_right hu hd'
          nlinarith
        · have hge : d' ≤ 2 * (num' % d') := by
            by_contra hc
            push Not at hc
            have h3 : 2 * (num' % d') * d < d' * d := Nat.mul_lt_mul_of_pos_right hc hd
            have h4 : 2 * (num % d) * d' = d * d' := by rw [hu]
            nlinarith
          rcases Nat.lt_or_eq_of_le hge with h5 | h5
          · exact .inl h5
          · exact .inr ⟨h5.symm, hodd⟩
      simp [hu, hu']
    · simp [hu]

theorem roundShift_mono {p num den num' den' : Nat} (hd : 0 < den) (hd' : 0 < den')
    (h : num * den' ≤ num' * den) : roundShift p num den ≤ roundShift p num' den' := by
  unfold roundShift
  have hq := div_le_div_of_ratio hd hd' h
  have : Nat.log2 (num / den) ≤ Nat.log2 (num' / den') := by
    rw [Nat.log2_eq_log_two, Nat.log2_eq_log_two]
    exact Nat.log_mono_right hq
  omega

/-- A quotient is below the power of two that its shift leaves room for. -/
theorem div_lt_of_shift (p num den : Nat) : num / (den * 2 ^ roundShift p num den) < 2 ^ (p + 1) := by
  rw [← Nat.div_div_eq_div_mul]
  have h : num / den < 2 ^ (Nat.log2 (num / den) + 1) := Nat.lt_log2_self
  rw [Nat.div_lt_iff_lt_mul (by positivity), ← pow_add]
  refine lt_of_lt_of_le h (Nat.pow_le_pow_right (by norm_num) ?_)
  unfold roundShift; omega

/-- With a shift at all, the quotient has all its `p + 1` bits. -/
theorem le_div_of_shift {p num den : Nat} (h : 0 < roundShift p num den) :
    2 ^ p ≤ num / (den * 2 ^ roundShift p num den) := by
  have hlog : p + roundShift p num den = Nat.log2 (num / den) := by unfold roundShift at *; omega
  have hne : num / den ≠ 0 := by
    intro h0
    rw [h0] at hlog
    simp at hlog
    omega
  rw [← Nat.div_div_eq_div_mul, Nat.le_div_iff_mul_le (by positivity), ← pow_add, hlog]
  exact Nat.log2_self_le hne

/-- Rounding follows the order of the ratios. -/
theorem roundMag_mono {p num den num' den' : Nat} (hd : 0 < den) (hd' : 0 < den')
    (h : num * den' ≤ num' * den) : roundMag p num den ≤ roundMag p num' den' := by
  rw [roundMag_eq, roundMag_eq]
  have hk := roundShift_mono (p := p) hd hd' h
  rcases Nat.lt_or_eq_of_le hk with hlt | heq
  · have h1 : roundNat num (den * 2 ^ roundShift p num den) ≤ 2 ^ (p + 1) :=
      le_trans (roundNat_le _ _) (div_lt_of_shift p num den)
    have h2 : 2 ^ p ≤ roundNat num' (den' * 2 ^ roundShift p num' den') :=
      le_trans (le_div_of_shift (by omega)) (div_le_roundNat _ _)
    have h3 : (roundShift p num den + 1) * 2 ^ p ≤ roundShift p num' den' * 2 ^ p :=
      Nat.mul_le_mul_right _ hlt
    rw [pow_succ] at h1
    nlinarith
  · rw [heq]
    refine Nat.add_le_add_left (roundNat_mono (by positivity) (by positivity) ?_) _
    calc num * (den' * 2 ^ roundShift p num' den') = num * den' * 2 ^ roundShift p num' den' := by ring
      _ ≤ num' * den * 2 ^ roundShift p num' den' := Nat.mul_le_mul_right _ h
      _ = num' * (den * 2 ^ roundShift p num' den') := by ring

/-! ### Units of a magnitude -/

theorem magUnits_small {p m : Nat} (h : m < 2 ^ (p + 1)) : magUnits p m = m := by
  unfold magUnits
  split
  · rfl
  · rename_i h0
    have h1 : m / 2 ^ p < 2 := by
      rw [Nat.div_lt_iff_lt_mul (by positivity)]; rw [pow_succ] at h; omega
    have h2 : m / 2 ^ p = 1 := by
      have : m / 2 ^ p ≠ 0 := h0
      generalize m / 2 ^ p = q at *
      omega
    have h3 := Nat.div_add_mod m (2 ^ p)
    rw [h2] at h3 ⊢
    simp at h3 ⊢
    omega

/-- The magnitude with exponent field `e + 1` and significand `2^p + f`. -/
theorem magUnits_normal {p e f : Nat} (h : f < 2 ^ p) :
    magUnits p ((e + 1) * 2 ^ p + f) = (2 ^ p + f) * 2 ^ e := by
  have h1 : ((e + 1) * 2 ^ p + f) / 2 ^ p = e + 1 := by
    rw [Nat.add_comm, Nat.add_mul_div_right _ _ (by positivity), Nat.div_eq_of_lt h]; omega
  have h2 : ((e + 1) * 2 ^ p + f) % 2 ^ p = f := by
    rw [Nat.add_comm, Nat.add_mul_mod_self_right, Nat.mod_eq_of_lt h]
  unfold magUnits
  rw [h1, h2]
  simp

/-- Every magnitude is subnormal or of the normal form. -/
theorem mag_cases (p m : Nat) :
    m < 2 ^ (p + 1) ∨ ∃ e f, f < 2 ^ p ∧ m = (e + 1) * 2 ^ p + f ∧ 0 < e := by
  by_cases h : m < 2 ^ (p + 1)
  · exact .inl h
  · right
    have h1 : 2 ≤ m / 2 ^ p := by
      rw [Nat.le_div_iff_mul_le (by positivity)]; rw [pow_succ] at h; omega
    refine ⟨m / 2 ^ p - 1, m % 2 ^ p, Nat.mod_lt _ (by positivity), ?_, by omega⟩
    have h3 := Nat.div_add_mod m (2 ^ p)
    have h4 : m / 2 ^ p - 1 + 1 = m / 2 ^ p := by omega
    rw [h4, Nat.mul_comm]
    exact h3.symm

theorem roundNat_exact {a d : Nat} (hd : 0 < d) : roundNat (a * d) d = a := by
  unfold roundNat
  simp only [Nat.mul_div_cancel _ hd, Nat.mul_mod_left]
  have : roundsUp a 0 d = false := by
    rw [Bool.eq_false_iff, ne_eq, roundsUp_iff]
    omega
  simp [this]

/-- A value that is a magnitude's own rounds to that magnitude. -/
theorem roundMag_exact {p m den : Nat} (hd : 0 < den) : roundMag p (magUnits p m * den) den = m := by
  rw [roundMag_eq]
  rcases mag_cases p m with h | ⟨e, f, hf, rfl, he⟩
  · rw [magUnits_small h]
    have hk : roundShift p (m * den) den = 0 := by
      unfold roundShift
      rw [Nat.mul_div_cancel _ hd]
      by_cases hm : m = 0
      · subst hm; simp
      · have : Nat.log2 m < p + 1 := (Nat.log2_lt hm).2 h
        omega
    rw [hk]
    simp [roundNat_exact hd]
  · rw [magUnits_normal hf]
    have hk : roundShift p ((2 ^ p + f) * 2 ^ e * den) den = e := by
      unfold roundShift
      rw [Nat.mul_div_cancel _ hd]
      have hlog : Nat.log2 ((2 ^ p + f) * 2 ^ e) = p + e := by
        rw [Nat.log2_eq_iff (by positivity)]
        constructor
        · rw [pow_add]
          exact Nat.mul_le_mul_right _ (by omega)
        · rw [show p + e + 1 = (p + 1) + e by ring, pow_add]
          refine Nat.mul_lt_mul_of_pos_right ?_ (by positivity)
          rw [pow_succ]; omega
      omega
    rw [hk]
    have : (2 ^ p + f) * 2 ^ e * den = (2 ^ p + f) * (den * 2 ^ e) := by ring
    rw [this, roundNat_exact (by positivity)]
    ring

/-- A ratio at most a magnitude's value rounds to at most that magnitude. -/
theorem roundMag_le {p num den m : Nat} (hd : 0 < den) (h : num ≤ magUnits p m * den) :
    roundMag p num den ≤ m := by
  have := roundMag_mono (p := p) hd hd (Nat.mul_le_mul_right den h)
  rwa [roundMag_exact hd] at this

/-- A ratio at least a magnitude's value rounds to at least that magnitude. -/
theorem le_roundMag {p num den m : Nat} (hd : 0 < den) (h : magUnits p m * den ≤ num) :
    m ≤ roundMag p num den := by
  have := roundMag_mono (p := p) hd hd (Nat.mul_le_mul_right den h)
  rwa [roundMag_exact hd] at this

/-- Units follow the order of the magnitudes. -/
theorem magUnits_lt {p m m' : Nat} (h : m < m') : magUnits p m < magUnits p m' := by
  by_contra hc
  push Not at hc
  have h1 : roundMag p (magUnits p m' * 1) 1 ≤ m := roundMag_le (by norm_num) (by omega)
  rw [roundMag_exact (by norm_num)] at h1
  omega

theorem magUnits_le_iff {p m m' : Nat} : magUnits p m ≤ magUnits p m' ↔ m ≤ m' := by
  constructor
  · intro h
    by_contra hc
    push Not at hc
    exact absurd (magUnits_lt (p := p) hc) (by omega)
  · intro h
    rcases Nat.lt_or_eq_of_le h with h | h
    · exact le_of_lt (magUnits_lt h)
    · rw [h]

theorem magUnits_inj {p m m' : Nat} (h : magUnits p m = magUnits p m') : m = m' :=
  le_antisymm (magUnits_le_iff.1 h.le) (magUnits_le_iff.1 h.ge)

@[simp] theorem magUnits_zero (p : Nat) : magUnits p 0 = 0 := magUnits_small (by positivity)

theorem magUnits_pos {p m : Nat} (h : 0 < m) : 0 < magUnits p m := by
  have := magUnits_lt (p := p) h
  simpa using this

/-- A significand of at most `p + 1` bits, scaled by a power of two, is the value of a magnitude. -/
theorem exists_mag {p a : Nat} (j : Nat) (h : a < 2 ^ (p + 1)) : ∃ m, magUnits p m = a * 2 ^ j := by
  by_cases ha : a = 0
  · exact ⟨0, by simp [ha]⟩
  have hlog : Nat.log2 a < p + 1 := (Nat.log2_lt ha).2 h
  have hlo : 2 ^ Nat.log2 a ≤ a := Nat.log2_self_le ha
  have hhi : a < 2 ^ (Nat.log2 a + 1) := Nat.lt_log2_self
  by_cases hs : a * 2 ^ j < 2 ^ (p + 1)
  · exact ⟨a * 2 ^ j, magUnits_small hs⟩
  · have hj : p ≤ Nat.log2 a + j := by
      by_contra hc
      push Not at hc
      apply hs
      calc a * 2 ^ j < 2 ^ (Nat.log2 a + 1) * 2 ^ j := Nat.mul_lt_mul_of_pos_right hhi (by positivity)
        _ = 2 ^ (Nat.log2 a + 1 + j) := (pow_add _ _ _).symm
        _ ≤ 2 ^ (p + 1) := Nat.pow_le_pow_right (by norm_num) (by omega)
    obtain ⟨t, ht⟩ : ∃ t, Nat.log2 a + t = p := ⟨p - Nat.log2 a, by omega⟩
    obtain ⟨e, he⟩ : ∃ e, j = t + e := ⟨j - t, by omega⟩
    have hsig : 2 ^ p ≤ a * 2 ^ t := by
      rw [← ht, pow_add]; exact Nat.mul_le_mul_right _ hlo
    have hsig' : a * 2 ^ t < 2 ^ (p + 1) := by
      rw [← ht, show Nat.log2 a + t + 1 = (Nat.log2 a + 1) + t by ring, pow_add]
      exact Nat.mul_lt_mul_of_pos_right hhi (by positivity)
    refine ⟨(e + 1) * 2 ^ p + (a * 2 ^ t - 2 ^ p), ?_⟩
    rw [magUnits_normal (by rw [pow_succ] at hsig'; omega), Nat.add_sub_cancel' hsig, he, pow_add]
    ring

/-- Such a value rounds to itself. -/
theorem magUnits_roundMag {p a : Nat} (j : Nat) (h : a < 2 ^ (p + 1)) :
    magUnits p (roundMag p (a * 2 ^ j) 1) = a * 2 ^ j := by
  obtain ⟨m, hm⟩ := exists_mag j h
  have := roundMag_exact (p := p) (m := m) (den := 1) (by norm_num)
  rw [Nat.mul_one, hm] at this
  rw [this, hm]

/-- Every magnitude's value is a significand of at most `p + 1` bits, scaled. -/
theorem magUnits_form (p m : Nat) : ∃ a j, a < 2 ^ (p + 1) ∧ magUnits p m = a * 2 ^ j ∧
    (2 ^ p ≤ a ∨ j = 0) := by
  rcases mag_cases p m with h | ⟨e, f, hf, rfl, _⟩
  · exact ⟨m, 0, h, by simp [magUnits_small h], .inr rfl⟩
  · exact ⟨2 ^ p + f, e, by rw [pow_succ]; omega, magUnits_normal hf, .inl (by omega)⟩

end Sys2Proof
end

