-- ==== Sys2Proof/Laws/Float.lean ====
section
/-!
SUPPORT. What the binary64 operations do on the values the core computes with: finite values that are not negative.
Each lemma unfolds its operation once; later proofs cite the lemma.
-/

namespace Sys2Proof

/-! ### Sign and magnitude -/

theorem B64.mag_lt (x : B64) : x.mag < 2 ^ 63 := Nat.mod_lt _ (by norm_num)

theorem B64.toNat_eq (x : B64) : x.bits.toNat = (if x.neg then 2 ^ 63 else 0) + x.mag := by
  have h := x.bits.isLt
  unfold B64.neg B64.mag
  rw [BitVec.msb_eq_decide]
  by_cases hc : 2 ^ (64 - 1) ≤ x.bits.toNat
  · simp only [hc, decide_true, if_true]; omega
  · simp only [hc, decide_false]; simp; omega

theorem B64.ext_sign_mag {x y : B64} (hn : x.neg = y.neg) (hm : x.mag = y.mag) : x = y := by
  have : x.bits = y.bits := by
    apply BitVec.eq_of_toNat_eq
    rw [B64.toNat_eq x, B64.toNat_eq y, hn, hm]
  cases x; cases y; simp_all

theorem B64.pack_toNat (n : Bool) {m : Nat} (h : m < 2 ^ 63) :
    (B64.pack n m).bits.toNat = (if n then 2 ^ 63 else 0) + m := by
  unfold B64.pack
  simp only [BitVec.toNat_ofNat]
  apply Nat.mod_eq_of_lt
  cases n <;> simp <;> omega

@[simp] theorem B64.pack_mag (n : Bool) {m : Nat} (h : m < 2 ^ 63) : (B64.pack n m).mag = m := by
  unfold B64.mag
  rw [B64.pack_toNat n h]
  cases n <;> simp
  all_goals omega

@[simp] theorem B64.pack_neg (n : Bool) {m : Nat} (h : m < 2 ^ 63) : (B64.pack n m).neg = n := by
  unfold B64.neg
  rw [BitVec.msb_eq_decide, B64.pack_toNat n h]
  cases n <;> simp
  all_goals omega

theorem B64.pack_self (x : B64) : B64.pack x.neg x.mag = x :=
  B64.ext_sign_mag (B64.pack_neg _ x.mag_lt) (B64.pack_mag _ x.mag_lt)

theorem B64.infMag_lt : B64.infMag < 2 ^ 63 := by decide

@[simp] theorem B64.ofRatio_neg (n : Bool) (a b : Nat) : (B64.ofRatio n a b).neg = n :=
  B64.pack_neg n (lt_of_le_of_lt (Nat.min_le_right _ _) B64.infMag_lt)

theorem B64.ofRatio_mag (n : Bool) (a b : Nat) :
    (B64.ofRatio n a b).mag = min (roundMag 52 a b) B64.infMag :=
  B64.pack_mag n (lt_of_le_of_lt (Nat.min_le_right _ _) B64.infMag_lt)

theorem B64.isFinite_iff (x : B64) : x.isFinite = true ↔ x.mag < B64.infMag := by simp [B64.isFinite]

theorem B64.not_nan_of_finite {x : B64} (h : x.isFinite = true) : x.isNaN = false := by
  rw [B64.isFinite_iff] at h; simp [B64.isNaN]; omega

theorem B64.not_inf_of_finite {x : B64} (h : x.isFinite = true) : x.isInf = false := by
  rw [B64.isFinite_iff] at h; simp [B64.isInf]; omega

/-- A rounded result never is a NaN. -/
theorem B64.ofRatio_not_nan (n : Bool) (a b : Nat) : (B64.ofRatio n a b).isNaN = false := by
  simp [B64.isNaN, B64.ofRatio_mag]

/-- A ratio at most a finite magnitude's value gives a finite result of at most that magnitude. -/
theorem B64.ofRatio_le (n : Bool) {a b m : Nat} (hb : 0 < b) (hm : m < B64.infMag)
    (h : a ≤ magUnits 52 m * b) :
    (B64.ofRatio n a b).isFinite = true ∧ (B64.ofRatio n a b).mag = roundMag 52 a b ∧
      (B64.ofRatio n a b).mag ≤ m := by
  have h1 : roundMag 52 a b ≤ m := roundMag_le hb h
  have h2 : (B64.ofRatio n a b).mag = roundMag 52 a b := by
    rw [B64.ofRatio_mag]; exact Nat.min_eq_left (by omega)
  exact ⟨by rw [B64.isFinite_iff, h2]; omega, h2, by omega⟩

/-- A ratio at least a finite magnitude's value gives a result of at least that magnitude. -/
theorem B64.le_ofRatio (n : Bool) {a b m : Nat} (hb : 0 < b) (hm : m ≤ B64.infMag)
    (h : magUnits 52 m * b ≤ a) : m ≤ (B64.ofRatio n a b).mag := by
  rw [B64.ofRatio_mag]
  exact le_min (le_roundMag hb h) hm

/-- Rounded results are ordered as the ratios are. -/
theorem B64.ofRatio_mono (n n' : Bool) {a b a' b' : Nat} (hb : 0 < b) (hb' : 0 < b')
    (h : a * b' ≤ a' * b) : (B64.ofRatio n a b).mag ≤ (B64.ofRatio n' a' b').mag := by
  rw [B64.ofRatio_mag, B64.ofRatio_mag]
  exact min_le_min_right _ (roundMag_mono hb hb' h)

/-! ### Finite values that are not negative -/

/-- Finite and `>= 0.0`. -/
abbrev B64.Nonneg (x : B64) : Prop := x.isFinite = true ∧ B64.le B64.zero x = true

theorem B64.le_zero_iff (x : B64) :
    B64.le B64.zero x = true ↔ x.isNaN = false ∧ (x.neg = true → x.mag = 0) := by
  have h0 : B64.zero.isNaN = false := by decide
  have hk : B64.zero.key = 0 := by decide
  unfold B64.le
  rw [h0, hk]
  unfold B64.key
  cases x.neg <;> cases x.isNaN <;> simp

theorem B64.nonneg_iff (x : B64) : x.Nonneg ↔ x.mag < B64.infMag ∧ (x.neg = true → x.mag = 0) := by
  unfold B64.Nonneg
  rw [B64.isFinite_iff, B64.le_zero_iff]
  constructor
  · rintro ⟨h1, _, h3⟩; exact ⟨h1, h3⟩
  · rintro ⟨h1, h3⟩; exact ⟨h1, B64.not_nan_of_finite ((B64.isFinite_iff x).2 h1), h3⟩

theorem B64.value_of_nonneg {x : B64} (h : x.Nonneg) : x.value = (x.units : Int) := by
  rw [B64.nonneg_iff] at h
  unfold B64.value
  split
  · rename_i hn; simp [B64.units, h.2 hn]
  · rfl

theorem B64.key_of_nonneg {x : B64} (h : x.Nonneg) : x.key = (x.mag : Int) := by
  rw [B64.nonneg_iff] at h
  unfold B64.key
  split
  · rename_i hn; simp [h.2 hn]
  · rfl

theorem B64.le_iff_of_nonneg {x y : B64} (hx : x.Nonneg) (hy : y.Nonneg) :
    B64.le x y = true ↔ x.mag ≤ y.mag := by
  simp [B64.le, B64.not_nan_of_finite hx.1, B64.not_nan_of_finite hy.1, B64.key_of_nonneg hx,
    B64.key_of_nonneg hy]

theorem B64.lt_iff_of_nonneg {x y : B64} (hx : x.Nonneg) (hy : y.Nonneg) :
    B64.lt x y = true ↔ x.mag < y.mag := by
  simp [B64.lt, B64.not_nan_of_finite hx.1, B64.not_nan_of_finite hy.1, B64.key_of_nonneg hx,
    B64.key_of_nonneg hy]

/-- A value above +0.0 has its sign clear. -/
theorem B64.lt_zero_iff (x : B64) :
    B64.lt B64.zero x = true ↔ x.isNaN = false ∧ x.neg = false ∧ 0 < x.mag := by
  have h0 : B64.zero.isNaN = false := by decide
  have hk : B64.zero.key = 0 := by decide
  unfold B64.lt
  rw [h0, hk]
  unfold B64.key
  cases x.neg <;> cases x.isNaN <;> simp

theorem B64.nonneg_of_pos {x : B64} (h : B64.lt B64.zero x = true) (hf : x.isFinite = true) : x.Nonneg := by
  rw [B64.lt_zero_iff] at h
  rw [B64.nonneg_iff]
  exact ⟨(B64.isFinite_iff x).1 hf, by simp [h.2.1]⟩

theorem B64.units_lt_iff {x y : B64} : x.units < y.units ↔ x.mag < y.mag := by
  unfold B64.units
  rw [← not_le, magUnits_le_iff, not_le]

theorem B64.units_le_iff {x y : B64} : x.units ≤ y.units ↔ x.mag ≤ y.mag := magUnits_le_iff

theorem B64.roundMag_zero (d : Nat) : roundMag 52 0 d = 0 := by
  rcases Nat.eq_zero_or_pos d with rfl | h
  · decide
  · have := roundMag_exact (p := 52) (m := 0) h
    simpa using this

/-- Sign and magnitude of an exact non-negative number of units, rounded. -/
theorem B64.ofUnits_nat (z : Bool) (v : Nat) :
    (B64.ofUnits z (v : Int)).mag = min (roundMag 52 v 1) B64.infMag ∧
      ((B64.ofUnits z (v : Int)).neg = true → z = true ∧ v = 0) := by
  unfold B64.ofUnits
  by_cases hv : v = 0
  · subst hv
    simp only [Nat.cast_zero, if_true, B64.signedZero]
    rw [B64.pack_mag _ (by norm_num), B64.pack_neg _ (by norm_num), B64.roundMag_zero]
    simp
  · have h1 : ¬ ((v : Int) = 0) := by omega
    have h2 : ¬ ((v : Int) < 0) := by omega
    simp only [h1, if_false, h2, decide_false, Int.natAbs_natCast, B64.ofRatio_mag, B64.ofRatio_neg]
    simp

/-- The sum of two finite non-negative values: their exact sum, rounded. -/
theorem B64.add_nonneg {a b : B64} (ha : a.Nonneg) (hb : b.Nonneg) :
    (B64.add a b).mag = min (roundMag 52 (a.units + b.units) 1) B64.infMag ∧
      ((B64.add a b).neg = true → a.neg = true ∧ b.neg = true ∧ a.units + b.units = 0) := by
  unfold B64.add B64.addAs
  simp only [B64.not_nan_of_finite ha.1, B64.not_nan_of_finite hb.1, B64.not_inf_of_finite ha.1,
    B64.not_inf_of_finite hb.1, Bool.or_self, Bool.false_eq_true, if_false, B64.value_of_nonneg ha,
    B64.value_of_nonneg hb]
  have h := B64.ofUnits_nat (a.neg && b.neg) (a.units + b.units)
  rw [Nat.cast_add] at h
  refine ⟨h.1, fun hn => ?_⟩
  have := h.2 hn
  simp only [Bool.and_eq_true] at this
  exact ⟨this.1.1, this.1.2, this.2⟩

/-- A bound by a finite magnitude makes the sum finite and non-negative, and bounds it. -/
theorem B64.add_nonneg_le {a b : B64} (ha : a.Nonneg) (hb : b.Nonneg) {m : Nat} (hm : m < B64.infMag)
    (h : a.units + b.units ≤ magUnits 52 m) : (B64.add a b).Nonneg ∧ (B64.add a b).mag ≤ m := by
  obtain ⟨h1, h2⟩ := B64.add_nonneg ha hb
  have h3 : roundMag 52 (a.units + b.units) 1 ≤ m := roundMag_le (by norm_num) (by omega)
  have h4 : (B64.add a b).mag = roundMag 52 (a.units + b.units) 1 := by
    rw [h1]; exact Nat.min_eq_left (by omega)
  refine ⟨(B64.nonneg_iff _).2 ⟨by omega, fun hn => ?_⟩, by omega⟩
  rw [h4, (h2 hn).2.2, B64.roundMag_zero]

/-- The quotient of a finite value by a finite value other than ±0.0: the exact quotient, rounded. -/
theorem B64.div_finite {a b : B64} (ha : a.isFinite = true) (hb : b.isFinite = true) (hb0 : 0 < b.mag) :
    B64.div a b = B64.ofRatio (a.neg != b.neg) (a.units * B64.one) b.units := by
  unfold B64.div
  have hz : b.isZero = false := by simp [B64.isZero]; omega
  simp [B64.not_nan_of_finite ha, B64.not_nan_of_finite hb, B64.not_inf_of_finite ha,
    B64.not_inf_of_finite hb, hz]

/-- The magnitude of a rounded exact number of units, whatever its sign. -/
theorem B64.ofUnits_mag (z : Bool) (v : Int) :
    (B64.ofUnits z v).mag = min (roundMag 52 v.natAbs 1) B64.infMag := by
  unfold B64.ofUnits
  by_cases hv : v = 0
  · subst hv
    simp only [if_true, B64.signedZero, Int.natAbs_zero]
    rw [B64.pack_mag _ (by norm_num), B64.roundMag_zero]
    simp
  · rw [if_neg hv, B64.ofRatio_mag]

/-- The magnitude of the sum of two finite values. -/
theorem B64.add_finite_mag {a b : B64} (ha : a.isFinite = true) (hb : b.isFinite = true) :
    (B64.add a b).mag = min (roundMag 52 (a.value + b.value).natAbs 1) B64.infMag := by
  unfold B64.add B64.addAs
  simp only [B64.not_nan_of_finite ha, B64.not_nan_of_finite hb, B64.not_inf_of_finite ha,
    B64.not_inf_of_finite hb, Bool.or_self, Bool.false_eq_true, if_false]
  exact B64.ofUnits_mag _ _

/-- A sum of finite values: the exact sum, rounded. -/
theorem B64.addAs_finite {a b : B64} (op : FloatOp) (ha : a.isFinite = true) (hb : b.isFinite = true) :
    B64.addAs op a b = B64.ofUnits (a.neg && b.neg) (a.value + b.value) := by
  unfold B64.addAs
  simp [B64.not_nan_of_finite ha, B64.not_nan_of_finite hb, B64.not_inf_of_finite ha,
    B64.not_inf_of_finite hb]

/-- The floor of a finite value: the exact integer, as a number of units. -/
theorem B64.floor_finite {a : B64} (ha : a.isFinite = true) :
    B64.floor a = B64.ofUnits a.neg (a.floorInt * (B64.one : Int)) := by
  unfold B64.floor
  simp only [B64.not_nan_of_finite ha, B64.not_inf_of_finite ha, Bool.false_eq_true, if_false]

/-- The conversion of a finite value: the exact value, rounded. -/
theorem B64.toB32_finite {a : B64} (ha : a.isFinite = true) :
    a.toB32 = B32.ofRatio a.neg a.units B32.unitInB64 := by
  unfold B64.toB32
  simp only [B64.not_nan_of_finite ha, B64.not_inf_of_finite ha, Bool.false_eq_true, if_false]

/-- The sign bit of a value that is not zero is its sign. -/
theorem B64.neg_of_value_ne_zero {x : B64} (h : x.value ≠ 0) : x.neg = decide (x.value < 0) := by
  unfold B64.value at *
  cases hx : x.neg <;> simp [hx] at h ⊢
  omega

theorem B32.ofRatio_neg_mag (n : Bool) (a b : Nat) :
    (B32.ofRatio n a b).neg = n ∧ (B32.ofRatio n a b).mag = min (roundMag 23 a b) B32.infMag := by
  have h : min (roundMag 23 a b) B32.infMag < 2 ^ 31 := lt_of_le_of_lt (Nat.min_le_right _ _) (by decide)
  unfold B32.ofRatio B32.neg B32.mag B32.pack
  generalize min (roundMag 23 a b) B32.infMag = m at h
  constructor
  · rw [BitVec.msb_eq_decide]; cases n <;> simp <;> omega
  · cases n <;> simp <;> omega

theorem B64.value_natAbs (x : B64) : x.value.natAbs = x.units := by
  unfold B64.value; split <;> simp

/-- The product of two finite values: the exact product, rounded. -/
theorem B64.mul_finite {a b : B64} (ha : a.isFinite = true) (hb : b.isFinite = true) :
    B64.mul a b = B64.ofRatio (a.neg != b.neg) (a.units * b.units) B64.one := by
  unfold B64.mul
  simp [B64.not_nan_of_finite ha, B64.not_nan_of_finite hb, B64.not_inf_of_finite ha,
    B64.not_inf_of_finite hb]

theorem B64.one_pos : 0 < B64.one := by unfold B64.one; positivity

/-- Numeric `<=`: neither side a NaN, and the order of the values. -/
theorem B64.le_iff (x y : B64) :
    B64.le x y = true ↔ x.isNaN = false ∧ y.isNaN = false ∧ x.key ≤ y.key := by
  simp [B64.le, and_assoc]

/-- Numeric `<=` is transitive. -/
theorem B64.le_trans {x y z : B64} (h1 : B64.le x y = true) (h2 : B64.le y z = true) :
    B64.le x z = true := by
  rw [B64.le_iff] at *
  exact ⟨h1.1, h2.2.1, Int.le_trans h1.2.2 h2.2.2⟩

/-! ### Powers of two, and integers as binary64 -/

/-- The magnitude of `2^e`. -/
def B64.powMag (e : Nat) : Nat := (1023 + e) * 2 ^ 52

theorem B64.magUnits_powMag (e : Nat) : magUnits 52 (B64.powMag e) = 2 ^ e * B64.one := by
  have h := magUnits_normal (p := 52) (e := 1022 + e) (f := 0) (by positivity)
  have h1 : B64.powMag e = (1022 + e + 1) * 2 ^ 52 + 0 := by unfold B64.powMag; ring
  rw [h1, h]
  unfold B64.one
  rw [Nat.add_zero, ← pow_add, ← pow_add]
  congr 1
  omega

theorem B64.powMag_lt_infMag {e : Nat} (h : e < 1024) : B64.powMag e < B64.infMag := by
  have h1 : B64.infMag = 2047 * 2 ^ 52 := by decide
  unfold B64.powMag
  rw [h1]
  exact Nat.mul_lt_mul_of_pos_right (by omega) (by positivity)

theorem B64.oneValue_mag : B64.oneValue.mag = B64.powMag 0 := by decide

theorem B64.oneValue_units : B64.oneValue.units = B64.one := by
  unfold B64.units
  rw [B64.oneValue_mag, B64.magUnits_powMag]
  ring

/-- `to_b64(k)` of a natural number: its sign is clear and its magnitude is the exact one, rounded. -/
theorem B64.ofInt_nat (k : Nat) :
    (B64.ofInt (k : Int)).neg = false ∧
      (B64.ofInt (k : Int)).mag = min (roundMag 52 (k * B64.one) 1) B64.infMag := by
  have h : ¬ ((k : Int) < 0) := by omega
  unfold B64.ofInt
  simp only [h, decide_false, Int.natAbs_natCast, B64.ofRatio_neg, B64.ofRatio_mag, and_self]

/-- Sign and exact value of an integer of at most 53 bits as binary64. -/
theorem B64.ofInt_exact {k : Int} (h : k.natAbs < 2 ^ 53) :
    (B64.ofInt k).neg = decide (k < 0) ∧ (B64.ofInt k).isFinite = true ∧
      (B64.ofInt k).units = k.natAbs * B64.one := by
  have hle : k.natAbs * B64.one ≤ magUnits 52 (B64.powMag 53) * 1 := by
    rw [B64.magUnits_powMag, Nat.mul_one]
    exact Nat.mul_le_mul_right _ h.le
  obtain ⟨f1, f2, _⟩ := B64.ofRatio_le (decide (k < 0)) (by norm_num) (B64.powMag_lt_infMag (by norm_num)) hle
  refine ⟨B64.ofRatio_neg _ _ _, f1, ?_⟩
  unfold B64.units B64.ofInt
  rw [f2]
  exact magUnits_roundMag 1074 h

/-- A natural number up to `2^e` is finite and at most `2^e`. -/
theorem B64.ofInt_le {k e : Nat} (he : e < 1024) (h : k ≤ 2 ^ e) :
    (B64.ofInt (k : Int)).Nonneg ∧ (B64.ofInt (k : Int)).mag ≤ B64.powMag e := by
  obtain ⟨h1, h2⟩ := B64.ofInt_nat k
  have h3 : roundMag 52 (k * B64.one) 1 ≤ B64.powMag e := by
    apply roundMag_le (by norm_num)
    rw [B64.magUnits_powMag, Nat.mul_one]
    exact Nat.mul_le_mul_right _ h
  have h4 := B64.powMag_lt_infMag he
  refine ⟨(B64.nonneg_iff _).2 ⟨by rw [h2]; omega, by simp [h1]⟩, by rw [h2]; omega⟩

/-- A positive natural number is at least 1.0. -/
theorem B64.one_le_ofInt {k : Nat} (h : 0 < k) : B64.oneValue.mag ≤ (B64.ofInt (k : Int)).mag := by
  rw [(B64.ofInt_nat k).2, B64.oneValue_mag]
  refine le_min ?_ (B64.powMag_lt_infMag (by norm_num)).le
  apply le_roundMag (by norm_num)
  rw [B64.magUnits_powMag, pow_zero, Nat.one_mul, Nat.mul_one]
  exact Nat.le_mul_of_pos_left _ h

/-- A natural number of at most 53 bits is exact. -/
theorem B64.ofInt_units {k : Nat} (h : k < 2 ^ 53) : (B64.ofInt (k : Int)).units = k * B64.one :=
  (B64.ofInt_exact (k := (k : Int)) (by simpa using h)).2.2

/-! ### floor and the fractional part -/

/-- Integer part and remainder of a finite value in units both are values of magnitudes. -/
theorem B64.exists_floor_mag (x : B64) :
    (∃ m, magUnits 52 m = x.units / B64.one * B64.one) ∧ ∃ m, magUnits 52 m = x.units % B64.one := by
  obtain ⟨a, j, ha, hu, _⟩ := magUnits_form 52 x.mag
  have hu' : x.units = a * 2 ^ j := hu
  rw [hu']
  by_cases hj : j ≤ 1074
  · obtain ⟨t, ht⟩ : ∃ t, t + j = 1074 := ⟨1074 - j, by omega⟩
    have h1 : B64.one = 2 ^ t * 2 ^ j := by unfold B64.one; rw [← pow_add, ht]
    rw [h1, Nat.mul_div_mul_right _ _ (by positivity), Nat.mul_mod_mul_right]
    constructor
    · rw [← Nat.mul_assoc]
      exact exists_mag j (lt_of_le_of_lt (Nat.div_mul_le_self a (2 ^ t)) ha)
    · exact exists_mag j (lt_of_le_of_lt (Nat.mod_le a (2 ^ t)) ha)
  · obtain ⟨t, ht⟩ : ∃ t, j = t + 1074 := ⟨j - 1074, by omega⟩
    have h1 : a * 2 ^ j = a * 2 ^ t * B64.one := by
      unfold B64.one; rw [ht, pow_add, Nat.mul_assoc]
    constructor
    · rw [h1, Nat.mul_div_cancel _ B64.one_pos, ← h1]
      exact ⟨x.mag, hu⟩
    · rw [h1, Nat.mul_mod_left]
      exact ⟨0, by simp⟩

/-- Rounding a number of units that is a magnitude's own value gives that value. -/
theorem B64.ofUnits_exact (z : Bool) {v m : Nat} (hm : m < B64.infMag) (h : magUnits 52 m = v) :
    (B64.ofUnits z (v : Int)).mag = m := by
  rw [(B64.ofUnits_nat z v).1, ← h]
  have := roundMag_exact (p := 52) (m := m) (den := 1) (by norm_num)
  rw [Nat.mul_one] at this
  rw [this]
  exact Nat.min_eq_left hm.le

theorem B64.floorInt_nonneg {x : B64} (h : x.Nonneg) : x.floorInt = ((x.units / B64.one : Nat) : Int) := by
  unfold B64.floorInt
  rw [B64.value_of_nonneg h, Int.fdiv_eq_ediv_of_nonneg _ (by omega)]
  rfl

/-- `floor` of a finite non-negative value is finite, non-negative and exact. -/
theorem B64.floor_nonneg {x : B64} (h : x.Nonneg) :
    (B64.floor x).Nonneg ∧ (B64.floor x).units = x.units / B64.one * B64.one ∧
      ((B64.floor x).neg = true → x.neg = true) := by
  obtain ⟨m, hm⟩ := (B64.exists_floor_mag x).1
  have hx := (B64.nonneg_iff x).1 h
  have hle : m ≤ x.mag := by
    rw [← magUnits_le_iff (p := 52), hm]; exact Nat.div_mul_le_self _ _
  have hmi : m < B64.infMag := by omega
  have hf : B64.floor x = B64.ofUnits x.neg ((x.units / B64.one * B64.one : Nat) : Int) := by
    unfold B64.floor
    simp only [B64.not_nan_of_finite h.1, B64.not_inf_of_finite h.1, B64.floorInt_nonneg h,
      Bool.false_eq_true, if_false, Nat.cast_mul]
  have hmag := B64.ofUnits_exact x.neg hmi hm
  have hneg := (B64.ofUnits_nat x.neg (x.units / B64.one * B64.one)).2
  rw [← hf] at hmag hneg
  refine ⟨(B64.nonneg_iff _).2 ⟨by omega, fun hn => ?_⟩, by unfold B64.units; rw [hmag]; exact hm,
    fun hn => (hneg hn).1⟩
  have h0 : magUnits 52 m = magUnits 52 0 := by rw [hm, (hneg hn).2, magUnits_zero]
  rw [hmag]; exact magUnits_inj h0

theorem B64.negate_mag (x : B64) : x.negate.mag = x.mag := B64.pack_mag _ x.mag_lt

theorem B64.negate_neg (x : B64) : x.negate.neg = !x.neg := B64.pack_neg _ x.mag_lt

theorem B64.negate_value (x : B64) : x.negate.value = -x.value := by
  unfold B64.value B64.units
  rw [B64.negate_mag, B64.negate_neg]
  cases x.neg <;> simp

theorem B64.negate_finite {x : B64} (h : x.isFinite = true) : x.negate.isFinite = true := by
  rw [B64.isFinite_iff] at h ⊢; rwa [B64.negate_mag]

/-- `s - floor(s)` for a finite non-negative `s` is exact, has its sign clear, and lies in [0, 1) (R91). -/
theorem B64.sub_floor_nonneg {x : B64} (h : x.Nonneg) :
    (B64.sub x (B64.floor x)).isFinite = true ∧ (B64.sub x (B64.floor x)).neg = false ∧
      (B64.sub x (B64.floor x)).units = x.units % B64.one := by
  obtain ⟨hfn, hfu, hfs⟩ := B64.floor_nonneg h
  obtain ⟨m, hm⟩ := (B64.exists_floor_mag x).2
  have hx := (B64.nonneg_iff x).1 h
  have hle : m ≤ x.mag := by
    rw [← magUnits_le_iff (p := 52), hm]; exact Nat.mod_le _ _
  have hmi : m < B64.infMag := by omega
  have hng := B64.negate_finite hfn.1
  have hdm := Nat.div_add_mod x.units B64.one
  have hv : x.value + (B64.floor x).negate.value = ((x.units % B64.one : Nat) : Int) := by
    rw [B64.negate_value, B64.value_of_nonneg h, B64.value_of_nonneg hfn, hfu]
    rw [Nat.mul_comm] at hdm
    omega
  have hs : B64.sub x (B64.floor x) =
      B64.ofUnits (x.neg && (B64.floor x).negate.neg) ((x.units % B64.one : Nat) : Int) := by
    unfold B64.sub B64.addAs
    simp only [B64.not_nan_of_finite h.1, B64.not_nan_of_finite hng, B64.not_inf_of_finite h.1,
      B64.not_inf_of_finite hng, Bool.or_self, Bool.false_eq_true, if_false, hv]
  have hmag := B64.ofUnits_exact (x.neg && (B64.floor x).negate.neg) hmi hm
  have hneg := (B64.ofUnits_nat (x.neg && (B64.floor x).negate.neg) (x.units % B64.one)).2
  rw [← hs] at hmag hneg
  refine ⟨by rw [B64.isFinite_iff]; omega, ?_, by unfold B64.units; rw [hmag]; exact hm⟩
  by_contra hc
  have hc' : (B64.sub x (B64.floor x)).neg = true := by simpa using hc
  have h1 := (hneg hc').1
  rw [B64.negate_neg, Bool.and_eq_true] at h1
  have hzero : x.mag = 0 := hx.2 h1.1
  have hfl : (B64.floor x).neg = true := by
    have : B64.floor x = B64.ofUnits x.neg 0 := by
      unfold B64.floor
      have hu : x.units = 0 := by simp [B64.units, hzero]
      simp only [B64.not_nan_of_finite h.1, B64.not_inf_of_finite h.1, B64.floorInt_nonneg h, hu,
        Bool.false_eq_true, if_false, Nat.zero_div, Nat.cast_zero, Int.zero_mul]
    rw [this]
    simp only [B64.ofUnits, if_true, B64.signedZero]
    rw [B64.pack_neg _ (by norm_num)]
    exact h1.1
  rw [hfl] at h1
  simp at h1

end Sys2Proof
end

