-- ==== Sys2Proof/Laws/Oscillator.lean ====
section
/-!
SUPPORT. The ranges of 41_oscillator.md and 43_renderer.md: the fractional part, the pitch converter's results, the
phase after an advance, the harmonic count, and the magnitude of every sample.
-/

namespace Sys2Proof.Machine

theorem oneValue_nonneg : B64.oneValue.Nonneg := by decide

/-- R91: the fractional part is exact, has its sign clear, and lies in [0, 1). -/
theorem fract_spec {x : B64} (h : x.Nonneg) :
    phaseLegal (fract x) ∧ (fract x).neg = false ∧ (fract x).units = x.units % B64.one := by
  have hx : fract x = B64.sub x (B64.floor x) := by
    unfold fract; rw [h.1, h.2]; rfl
  obtain ⟨h1, h2, h3⟩ := B64.sub_floor_nonneg h
  rw [← hx] at h1 h2 h3
  have hn : (fract x).Nonneg := (B64.nonneg_iff _).2 ⟨(B64.isFinite_iff _).1 h1, by simp [h2]⟩
  refine ⟨⟨hn.1, hn.2, ?_⟩, h2, h3⟩
  rw [B64.lt_iff_of_nonneg hn oneValue_nonneg, ← B64.units_lt_iff, h3, B64.oneValue_units]
  exact Nat.mod_lt _ B64.one_pos

/-! ### The pitch converter -/

theorem twelve_spec : B64.twelve.neg = false ∧ B64.twelve.isFinite = true ∧ 0 < B64.twelve.mag ∧
    B64.twelve.units = 12 * B64.one := by decide +kernel

/-- The quotient of a pitch as one rounding: the magnitude of `pitch - 69` over 12, and its sign. -/
theorem pitchQuotient_eq (n : Byte) :
    pitchQuotient n =
      B64.ofRatio (decide (pitchOffset n < 0)) ((pitchOffset n).natAbs * B64.one * B64.one) (12 * B64.one) := by
  obtain ⟨t1, t2, t3, t4⟩ := twelve_spec
  have hb : n.toNat < 256 := n.isLt
  have hd : (pitchOffset n).natAbs < 2 ^ 53 := by unfold pitchOffset; omega
  obtain ⟨h1, h2, h3⟩ := B64.ofInt_exact hd
  unfold pitchQuotient
  rw [B64.div_finite h2 t2 t3, h1, h3, t1, t4, Bool.bne_false]

theorem pitchQuotient_not_nan (n : Byte) : (pitchQuotient n).isNaN = false := by
  rw [pitchQuotient_eq]; exact B64.ofRatio_not_nan _ _ _

/-- The quotients rise with the pitch. -/
theorem pitchQuotient_key_mono {a b : Byte} (h : a.toNat ≤ b.toNat) :
    (pitchQuotient a).key ≤ (pitchQuotient b).key := by
  have h12 : 0 < 12 * B64.one := Nat.mul_pos (by norm_num) B64.one_pos
  have mono : ∀ (s t : Bool) (x y : Nat), x ≤ y →
      (B64.ofRatio s (x * B64.one * B64.one) (12 * B64.one)).mag ≤
        (B64.ofRatio t (y * B64.one * B64.one) (12 * B64.one)).mag := fun s t x y hxy =>
    B64.ofRatio_mono s t h12 h12
      (Nat.mul_le_mul_right _ (Nat.mul_le_mul_right _ (Nat.mul_le_mul_right _ hxy)))
  rw [pitchQuotient_eq, pitchQuotient_eq]
  unfold B64.key
  simp only [B64.ofRatio_neg, decide_eq_true_eq]
  have ha : pitchOffset a = (a.toNat : Int) - 69 := rfl
  have hb : pitchOffset b = (b.toNat : Int) - 69 := rfl
  by_cases h1 : pitchOffset b < 0
  · have h2 : pitchOffset a < 0 := by omega
    have := mono (decide (pitchOffset b < 0)) (decide (pitchOffset a < 0)) (pitchOffset b).natAbs
      (pitchOffset a).natAbs (by omega)
    rw [if_pos h1, if_pos h2]
    omega
  · rw [if_neg h1]
    by_cases h2 : pitchOffset a < 0
    · rw [if_pos h2]; omega
    · rw [if_neg h2]
      have := mono (decide (pitchOffset a < 0)) (decide (pitchOffset b < 0)) (pitchOffset a).natAbs
        (pitchOffset b).natAbs (by omega)
      omega

/-- The quotients of the end pitches are the ends of the interval of R10. -/
theorem pitchQuotient_ends : pitchQuotient 0#8 = Exp2Fn.low ∧ pitchQuotient 127#8 = Exp2Fn.high := by
  decide +kernel

/-- The quotients of the pitches 0..127 lie in the interval of R10. -/
theorem pitchQuotient_inRange {n : Byte} (h : n.toNat ≤ 127) : Exp2Fn.inRange (pitchQuotient n) = true := by
  unfold Exp2Fn.inRange
  rw [Bool.and_eq_true, B64.le_iff, B64.le_iff, ← pitchQuotient_ends.1, ← pitchQuotient_ends.2]
  exact ⟨⟨pitchQuotient_not_nan _, pitchQuotient_not_nan _, pitchQuotient_key_mono (Nat.zero_le _)⟩,
    pitchQuotient_not_nan _, pitchQuotient_not_nan _, pitchQuotient_key_mono h⟩

theorem low_inRange : Exp2Fn.inRange Exp2Fn.low = true := by
  rw [← pitchQuotient_ends.1]; exact pitchQuotient_inRange (by decide)

theorem high_inRange : Exp2Fn.inRange Exp2Fn.high = true := by
  rw [← pitchQuotient_ends.2]; exact pitchQuotient_inRange (by decide)

/-- EXP2 on its interval is finite, positive, and within the octaves the end bounds give. -/
theorem exp2_bounds {x : B64} (h : Exp2Fn.inRange x = true) :
    (Config.exp2 x).Nonneg ∧ (B64.pow2 (-6)).mag ≤ (Config.exp2 x).mag ∧
      (Config.exp2 x).mag ≤ (B64.pow2 5).mag ∧ (Config.exp2 x).neg = false := by
  obtain ⟨hp, hf⟩ := (Config.exp2Fn Exp2Fn.witness).pos x h
  have hn : (Config.exp2 x).Nonneg := B64.nonneg_of_pos hp hf
  have hneg : (Config.exp2 x).neg = false := ((B64.lt_zero_iff _).1 hp).2.1
  have h' := h
  unfold Exp2Fn.inRange at h'
  rw [Bool.and_eq_true] at h'
  have h1 := B64.le_trans (Config.exp2Fn Exp2Fn.witness).nearLow
    ((Config.exp2Fn Exp2Fn.witness).mono _ _ low_inRange h h'.1)
  have h2 := B64.le_trans ((Config.exp2Fn Exp2Fn.witness).mono _ _ h high_inRange h'.2)
    (Config.exp2Fn Exp2Fn.witness).nearHigh
  have p6 : (B64.pow2 (-6)).Nonneg := by decide +kernel
  have p5 : (B64.pow2 5).Nonneg := by decide +kernel
  exact ⟨hn, (B64.le_iff_of_nonneg p6 hn).1 h1, (B64.le_iff_of_nonneg hn p5).1 h2, hneg⟩

/-- The product of a converter's result, as one rounding. -/
theorem pitchToFreq_eq {n : Byte} (h : n.toNat ≤ 127) :
    pitchToFreq n =
      B64.ofRatio false ((Config.exp2 (pitchQuotient n)).units * B64.a440.units) B64.one := by
  have hr := pitchQuotient_inRange h
  obtain ⟨h1, _, _, h4⟩ := exp2_bounds hr
  have ha : B64.a440.isFinite = true := by decide
  have hna : B64.a440.neg = false := by decide
  unfold pitchToFreq
  rw [if_pos h, B64.mul_finite h1.1 ha, h4, hna]
  rfl

/-- The magnitudes of 6.875 and 14080.0, the bounds the end bounds of EXP2 give. -/
def freqLowMag : Nat := 0x401B800000000000
def freqHighMag : Nat := 0x40CB800000000000

/-- R82: the result for a pitch in 0..127 is finite and positive, between 6.875 and 14080.0. -/
theorem pitchToFreq_bounds {n : Byte} (h : n.toNat ≤ 127) :
    (pitchToFreq n).Nonneg ∧ (pitchToFreq n).neg = false ∧ freqLowMag ≤ (pitchToFreq n).mag ∧
      (pitchToFreq n).mag ≤ freqHighMag := by
  have hr := pitchQuotient_inRange h
  obtain ⟨_, h2, h3, _⟩ := exp2_bounds hr
  have hlo : (B64.pow2 (-6)).units ≤ (Config.exp2 (pitchQuotient n)).units := B64.units_le_iff.2 h2
  have hhi : (Config.exp2 (pitchQuotient n)).units ≤ (B64.pow2 5).units := B64.units_le_iff.2 h3
  have clo : magUnits 52 freqLowMag * B64.one ≤ (B64.pow2 (-6)).units * B64.a440.units := by decide +kernel
  have chi : (B64.pow2 5).units * B64.a440.units ≤ magUnits 52 freqHighMag * B64.one := by decide +kernel
  have hinf : freqHighMag < B64.infMag := by decide
  rw [pitchToFreq_eq h]
  obtain ⟨f1, f2, f3⟩ := B64.ofRatio_le false B64.one_pos hinf
    (Nat.le_trans (Nat.mul_le_mul_right B64.a440.units hhi) chi)
  refine ⟨(B64.nonneg_iff _).2 ⟨by omega, by simp⟩, by simp, ?_, f3⟩
  exact B64.le_ofRatio false B64.one_pos (by decide)
    (Nat.le_trans clo (Nat.mul_le_mul_right B64.a440.units hlo))

/-- R82: the converter does not decrease as the pitch rises. -/
theorem pitchToFreq_mono {a b : Byte} (h : a.toNat ≤ b.toNat) (hb : b.toNat ≤ 127) :
    B64.le (pitchToFreq a) (pitchToFreq b) = true := by
  have ra := pitchQuotient_inRange (Nat.le_trans h hb)
  have rb := pitchQuotient_inRange hb
  have hle : B64.le (pitchQuotient a) (pitchQuotient b) = true := by
    rw [B64.le_iff]
    exact ⟨pitchQuotient_not_nan a, pitchQuotient_not_nan b, pitchQuotient_key_mono h⟩
  have he := (Config.exp2Fn Exp2Fn.witness).mono _ _ ra rb hle
  have hu := B64.units_le_iff.2 ((B64.le_iff_of_nonneg (exp2_bounds ra).1 (exp2_bounds rb).1).1 he)
  rw [B64.le_iff_of_nonneg (pitchToFreq_bounds (by omega)).1 (pitchToFreq_bounds hb).1,
    pitchToFreq_eq (by omega), pitchToFreq_eq hb]
  exact B64.ofRatio_mono _ _ B64.one_pos B64.one_pos
    (Nat.mul_le_mul_right _ (Nat.mul_le_mul_right _ hu))

/-! ### The sample rate and the phase -/

/-- Widening a finite binary32 is exact and keeps its sign (R13). -/
theorem toB64_finite {r : B32} (h : r.isFinite = true) :
    r.toB64.isFinite = true ∧ r.toB64.neg = r.neg ∧ r.toB64.units = r.units * B32.unitInB64 ∧
      r.toB64.mag ≤ B64.powMag 128 := by
  have hf : r.mag < B32.infMag := by simpa [B32.isFinite] using h
  have hnan : r.isNaN = false := by simp [B32.isNaN]; omega
  have hinf : r.isInf = false := by simp [B32.isInf]; omega
  have hw : r.toB64 = B64.ofRatio r.neg (r.units * B32.unitInB64) 1 := by
    unfold B32.toB64; rw [hnan, hinf]; rfl
  obtain ⟨a, j, ha, hu, _⟩ := magUnits_form 23 r.mag
  have hu' : r.units * B32.unitInB64 = a * 2 ^ (j + 925) := by
    unfold B32.units B32.unitInB64
    rw [hu, pow_add, Nat.mul_assoc]
  have hex : magUnits 52 (roundMag 52 (r.units * B32.unitInB64) 1) = r.units * B32.unitInB64 := by
    rw [hu']
    exact magUnits_roundMag _ (lt_of_lt_of_le ha (Nat.pow_le_pow_right (by norm_num) (by norm_num)))
  have h2 : r.units ≤ magUnits 23 B32.infMag := magUnits_le_iff.2 hf.le
  have h3 : magUnits 23 B32.infMag * B32.unitInB64 = 2 ^ 128 * B64.one := by decide +kernel
  have hle : r.units * B32.unitInB64 ≤ magUnits 52 (B64.powMag 128) * 1 := by
    rw [B64.magUnits_powMag, Nat.mul_one, ← h3]
    exact Nat.mul_le_mul_right _ h2
  obtain ⟨f1, f2, f3⟩ := B64.ofRatio_le r.neg (by norm_num) (B64.powMag_lt_infMag (by norm_num)) hle
  rw [hw]
  refine ⟨f1, by simp, ?_, f3⟩
  unfold B64.units
  rw [f2]
  exact hex

/-- Widening a legal rate: sign clear, finite, exact (R13, R160). -/
theorem toB64_exact {r : B32} (h : rateLegal r = true) :
    r.toB64.Nonneg ∧ r.toB64.neg = false ∧ r.toB64.units = r.units * B32.unitInB64 ∧
      r.toB64.mag ≤ B64.powMag 128 ∧ 0 < r.units := by
  unfold rateLegal at h
  simp only [B32.positive, Bool.and_eq_true, Bool.not_eq_true', decide_eq_true_eq] at h
  obtain ⟨hf, ⟨_, hneg⟩, hpos⟩ := h
  obtain ⟨w1, w2, w3, w4⟩ := toB64_finite hf
  exact ⟨(B64.nonneg_iff _).2 ⟨(B64.isFinite_iff _).1 w1, by rw [w2, hneg]; simp⟩, w2.trans hneg, w3, w4,
    magUnits_pos hpos⟩

/-- A widened legal rate is at least `2^-149`. -/
theorem unit_le_toB64 {r : B32} (h : rateLegal r = true) : B32.unitInB64 ≤ r.toB64.units := by
  obtain ⟨_, _, h1, _, h2⟩ := toB64_exact h
  rw [h1]
  exact Nat.le_mul_of_pos_left _ h2

/-- A widened legal rate is no zero. -/
theorem toB64_mag_pos {r : B32} (h : rateLegal r = true) : 0 < r.toB64.mag := by
  have h0 : 0 < B32.unitInB64 := by unfold B32.unitInB64; positivity
  rcases Nat.eq_zero_or_pos r.toB64.mag with h1 | h1
  · have h2 : r.toB64.units = 0 := by unfold B64.units; rw [h1]; exact magUnits_zero 52
    have h3 := unit_le_toB64 h
    omega
  · exact h1

/-- A frequency the phase accumulator is driven with: finite, not negative, at most 14080.0. -/
def freqBounded (f : B64) : Prop := f.Nonneg ∧ f.mag ≤ freqHighMag

theorem freqBounded_zero : freqBounded B64.zero := by
  unfold freqBounded; decide

theorem freqBounded_pitch {n : Byte} (h : n.toNat ≤ 127) : freqBounded (pitchToFreq n) :=
  ⟨(pitchToFreq_bounds h).1, (pitchToFreq_bounds h).2.2.2⟩

/-- R103: the increment of a bounded frequency at a legal rate is finite and not negative. -/
theorem increment_nonneg {f : B64} {r : B32} (hf : freqBounded f) (hr : rateLegal r = true) :
    (B64.div f r.toB64).Nonneg ∧ (B64.div f r.toB64).mag ≤ B64.powMag 163 := by
  obtain ⟨hn, hneg, _⟩ := toB64_exact hr
  have hlo := unit_le_toB64 hr
  have hpos := toB64_mag_pos hr
  rw [B64.div_finite hf.1.1 hn.1 hpos, hneg]
  have hfu : f.units ≤ magUnits 52 freqHighMag := magUnits_le_iff.2 hf.2
  have c : magUnits 52 freqHighMag * B64.one ≤ 2 ^ 163 * B64.one * B32.unitInB64 := by decide +kernel
  have hle : f.units * B64.one ≤ magUnits 52 (B64.powMag 163) * r.toB64.units := by
    rw [B64.magUnits_powMag]
    exact Nat.le_trans (Nat.mul_le_mul_right _ hfu)
      (Nat.le_trans c (Nat.mul_le_mul_left _ hlo))
  have hb : 0 < r.toB64.units := magUnits_pos hpos
  obtain ⟨f1, f2, f3⟩ := B64.ofRatio_le (f.neg != false) hb (B64.powMag_lt_infMag (by norm_num)) hle
  refine ⟨(B64.nonneg_iff _).2 ⟨(B64.isFinite_iff _).1 f1, fun hs => ?_⟩, f3⟩
  rw [B64.ofRatio_neg] at hs
  have hfn : f.neg = true := by simpa using hs
  have hf0 : f.mag = 0 := ((B64.nonneg_iff f).1 hf.1).2 hfn
  have hu0 : f.units = 0 := by unfold B64.units; rw [hf0]; exact magUnits_zero 52
  rw [f2, hu0, Nat.zero_mul, B64.roundMag_zero]

/-- A legal phase is finite and not negative. -/
theorem phaseLegal.nonneg {p : B64} (h : phaseLegal p) : p.Nonneg := ⟨h.1, h.2.1⟩

theorem phase_units_le {p : B64} (h : phaseLegal p) : p.units ≤ B64.one := by
  have h1 := (B64.lt_iff_of_nonneg h.nonneg oneValue_nonneg).1 h.2.2
  have h2 := (B64.units_lt_iff (x := p) (y := B64.oneValue)).2 h1
  rw [B64.oneValue_units] at h2
  omega

/-- R103: PHASE_ADVANCE keeps the phase in [0, 1). -/
theorem phaseAdvance_legal {s : State} {r : B32} (hp : phaseLegal s.phase) (hf : freqBounded s.frequency)
    (hr : rateLegal r = true) : phaseLegal (phaseAdvance r.toB64 s).phase := by
  obtain ⟨hi, him⟩ := increment_nonneg hf hr
  have hiu : (B64.div s.frequency r.toB64).units ≤ 2 ^ 163 * B64.one := by
    rw [← B64.magUnits_powMag]; exact magUnits_le_iff.2 him
  have hsum : s.phase.units + (B64.div s.frequency r.toB64).units ≤ magUnits 52 (B64.powMag 164) := by
    rw [B64.magUnits_powMag]
    have := phase_units_le hp
    have h2 : 2 ^ 164 * B64.one = 2 ^ 163 * B64.one + 2 ^ 163 * B64.one := by
      rw [pow_succ]; ring
    have h3 : B64.one ≤ 2 ^ 163 * B64.one := Nat.le_mul_of_pos_left _ (by positivity)
    omega
  exact (fract_spec (B64.add_nonneg_le hp.nonneg hi (B64.powMag_lt_infMag (by norm_num)) hsum).1).1

end Sys2Proof.Machine
end

