-- ==== Sys2Proof/Laws/PerInstr.lean ====
section
/-!
SUPPORT. Statements about every instruction as written, one lemma per constructor. Family `RoundTrip`: decoding the
packet of a well-formed instruction gives the instruction back.
-/

namespace Sys2Proof.Laws.RoundTrip

def Statement (i : Instr) : Prop := WellFormed i → decode (encode i) = .ok i

theorem setSampleRate (rate : B32) : Statement (.setSampleRate rate) := by
  intro _
  have h : rate.bits.toNat < 4294967296 := rate.bits.isLt
  simp [encode, decode, decodeOperands, decodeRate, h]

theorem handleEvents (events : List Event) : Statement (.handleEvents events) := by
  intro _
  simp [encode, decode, decodeOperands, decodeBatch, decodeMessages_encode]

theorem render (numSamples numChannels : Nat) : Statement (.render numSamples numChannels) := by
  intro _
  simp [encode, decode, decodeOperands, decodeBlock]

theorem noteOff (note velocity : Byte) : Statement (.noteOff note velocity) := fun _ => rfl

theorem noteOn (note velocity : Byte) : Statement (.noteOn note velocity) := fun _ => rfl

theorem ignored (status data1 data2 : Byte) : Statement (.ignored status data1 data2) := by
  intro h
  simp only [WellFormed, Instr.wellFormed, Bool.and_eq_true, bne_iff_ne] at h
  simp [encode, decode, decodeEvent, eventKind, h.1, h.2]

theorem pitchToFreq (pitch : Byte) : Statement (.pitchToFreq pitch) := by
  intro _
  have h : pitch.toNat < 256 := pitch.isLt
  simp [encode, decode, decodeInvoke, h]

theorem changeFrequency (freq : B64) : Statement (.changeFrequency freq) := by
  intro _
  have h : freq.bits.toNat < 18446744073709551616 := freq.bits.isLt
  simp [encode, decode, decodeInvoke, h]

theorem nextSample : Statement .nextSample := fun _ => rfl

theorem nextSampleSine : Statement .nextSampleSine := fun _ => rfl

theorem nextSampleSaw : Statement .nextSampleSaw := fun _ => rfl

theorem harmonicCount : Statement .harmonicCount := fun _ => rfl

theorem phaseAdvance : Statement .phaseAdvance := fun _ => rfl

end Sys2Proof.Laws.RoundTrip
end

