-- ==== Sys2Proof/Laws/Samples.lean ====
section
/-!
SUPPORT. The harmonic count as an exact integer, and the magnitude of every sample: a sine sample is at most 1.0, a
sawtooth sample at most `2^53`, so the conversion to binary32 never overflows (R145, R148).
-/

namespace Sys2Proof.Machine

theorem two_spec : B64.two.neg = false ∧ B64.two.isFinite = true ∧ 0 < B64.two.mag ∧
    B64.two.units = 2 * B64.one := by decide +kernel

/-! ### HARMONIC_COUNT -/

/-- `floor` of a finite non-negative value is the integer `to_int` reads off. -/
theorem toInt_floor {x : B64} (h : x.Nonneg) :
    (B64.floor x).toInt? = some ((x.units / B64.one : Nat) : Int) := by
  obtain ⟨h1, h2, _⟩ := B64.floor_nonneg h
  have hf : (B64.floor x).floorInt = ((x.units / B64.one : Nat) : Int) := by
    rw [B64.floorInt_nonneg h1, h2, Nat.mul_div_cancel _ B64.one_pos]
  unfold B64.toInt?
  rw [hf, B64.value_of_nonneg h1, h2, h1.1]
  have : ((x.units / B64.one * B64.one : Nat) : Int) = ((x.units / B64.one : Nat) : Int) * (B64.one : Int) := by
    rw [Nat.cast_mul]
  rw [this]
  simp only [decide_true, Bool.and_self, if_true]

/-- The guard passes exactly for values above 1.0 (R98), which are not negative. -/
theorem sawGuard_iff {f : B64} (hf : f.isFinite = true) :
    sawGuard f = true ↔ f.Nonneg ∧ B64.oneValue.mag < f.mag := by
  have hk : B64.oneValue.key = (B64.oneValue.mag : Int) := B64.key_of_nonneg oneValue_nonneg
  have ho : B64.oneValue.isNaN = false := by decide
  constructor
  · intro h
    unfold sawGuard Config.sawEpsHz B64.lt at h
    simp only [Bool.and_eq_true, decide_eq_true_eq] at h
    have hneg : f.neg = false := by
      by_contra hc
      have hc' : f.neg = true := by simpa using hc
      have : f.key = -(f.mag : Int) := by unfold B64.key; rw [if_pos hc']
      omega
    have hn : f.Nonneg := (B64.nonneg_iff f).2 ⟨(B64.isFinite_iff f).1 hf, by simp [hneg]⟩
    refine ⟨hn, ?_⟩
    have := B64.key_of_nonneg hn
    omega
  · rintro ⟨hn, hlt⟩
    exact (B64.lt_iff_of_nonneg oneValue_nonneg hn).2 hlt

/-- Half of a finite non-negative rate is finite and not negative, and no larger. -/
theorem half_nonneg {sr : B64} (h : sr.Nonneg) (hs : sr.neg = false) :
    (B64.div sr B64.two).Nonneg ∧ (B64.div sr B64.two).neg = false ∧ (B64.div sr B64.two).mag ≤ sr.mag := by
  obtain ⟨t1, t2, t3, t4⟩ := two_spec
  rw [B64.div_finite h.1 t2 t3, hs, t1, t4]
  have hle : sr.units * B64.one ≤ magUnits 52 sr.mag * (2 * B64.one) := by
    show sr.units * B64.one ≤ sr.units * (2 * B64.one)
    exact Nat.mul_le_mul_left _ (by omega)
  obtain ⟨f1, f2, f3⟩ := B64.ofRatio_le (false != false) (Nat.mul_pos (by norm_num) B64.one_pos)
    ((B64.isFinite_iff _).1 h.1) hle
  exact ⟨(B64.nonneg_iff _).2 ⟨(B64.isFinite_iff _).1 f1, by simp⟩, by simp, f3⟩

/-- Dividing a finite value by a finite one of at least 1.0 does not raise the magnitude. -/
theorem div_ge_one {a b : B64} (ha : a.isFinite = true) (hb : b.isFinite = true)
    (h : B64.oneValue.mag ≤ b.mag) :
    (B64.div a b).isFinite = true ∧ (B64.div a b).mag ≤ a.mag ∧ (B64.div a b).neg = (a.neg != b.neg) := by
  have hu : B64.one ≤ b.units := by
    rw [← B64.oneValue_units]; exact B64.units_le_iff.2 h
  have hpos : 0 < b.mag := by
    have : 0 < B64.oneValue.mag := by decide
    omega
  rw [B64.div_finite ha hb hpos]
  have hle : a.units * B64.one ≤ magUnits 52 a.mag * b.units := Nat.mul_le_mul_left _ hu
  obtain ⟨f1, _, f3⟩ := B64.ofRatio_le (a.neg != b.neg) (magUnits_pos hpos) ((B64.isFinite_iff _).1 ha) hle
  exact ⟨f1, f3, by simp⟩

/-- R96: for a finite positive rate and a frequency above the guard, the count is the integer part of the quotient. -/
theorem harmonicCount_eq {sr f : B64} (hs : sr.Nonneg) (hneg : sr.neg = false) (hf : f.isFinite = true)
    (hg : sawGuard f = true) :
    harmonicCount sr f = (((B64.div (B64.div sr B64.two) f).units / B64.one : Nat) : Int) ∧
      (B64.div (B64.div sr B64.two) f).Nonneg ∧ (B64.div (B64.div sr B64.two) f).mag ≤ sr.mag := by
  obtain ⟨hn, hlt⟩ := (sawGuard_iff hf).1 hg
  obtain ⟨h1, h2, h3⟩ := half_nonneg hs hneg
  obtain ⟨d1, d2, d3⟩ := div_ge_one h1.1 hf hlt.le
  have hfn : f.neg = false := by
    by_contra hc
    have := ((B64.nonneg_iff f).1 hn).2 (by simpa using hc)
    omega
  have hdn : (B64.div (B64.div sr B64.two) f).Nonneg :=
    (B64.nonneg_iff _).2 ⟨(B64.isFinite_iff _).1 d1, by rw [d3, h2, hfn]; simp⟩
  refine ⟨?_, hdn, by omega⟩
  unfold harmonicCount
  rw [if_pos hg, toInt_floor hdn]

/-- R101: the count does not rise with the frequency. -/
theorem harmonicCount_antitone {sr f g : B64} (hs : sr.Nonneg) (hneg : sr.neg = false)
    (hf : f.isFinite = true) (hg : g.isFinite = true) (hfg : sawGuard f = true)
    (h : B64.lt f g = true) : harmonicCount sr g ≤ harmonicCount sr f := by
  obtain ⟨hfn, hf1⟩ := (sawGuard_iff hf).1 hfg
  have hgn : g.Nonneg ∧ B64.oneValue.mag < g.mag := by
    apply (sawGuard_iff hg).1
    have h1 : B64.lt B64.oneValue f = true := hfg
    show B64.lt B64.oneValue g = true
    unfold B64.lt at *
    simp only [Bool.and_eq_true, decide_eq_true_eq, Bool.not_eq_true'] at *
    exact ⟨⟨h1.1.1, h.1.2⟩, lt_trans h1.2 h.2⟩
  have hgg : sawGuard g = true := (sawGuard_iff hg).2 hgn
  obtain ⟨e1, _, _⟩ := harmonicCount_eq hs hneg hf hfg
  obtain ⟨e2, _, _⟩ := harmonicCount_eq hs hneg hg hgg
  obtain ⟨h1, h2, _⟩ := half_nonneg hs hneg
  have hlt := (B64.lt_iff_of_nonneg hfn hgn.1).1 h
  have hm : (B64.div (B64.div sr B64.two) g).mag ≤ (B64.div (B64.div sr B64.two) f).mag := by
    rw [B64.div_finite h1.1 hg (by omega), B64.div_finite h1.1 hf (by omega)]
    refine B64.ofRatio_mono _ _ (magUnits_pos (by omega)) (magUnits_pos (by omega)) ?_
    exact Nat.mul_le_mul_left _ (B64.units_le_iff.2 hlt.le)
  rw [e1, e2]
  exact_mod_cast Nat.div_le_div_right (B64.units_le_iff.2 hm)

/-! ### SIN -/

/-- SIN of a finite argument is finite and at most 1.0 in magnitude (R9). -/
theorem sin_bounded {x : B64} (h : x.isFinite = true) :
    (Config.sin x).isFinite = true ∧ (Config.sin x).mag ≤ B64.oneValue.mag := by
  have hf := (Config.sinFn SinFn.witness).finite x h
  obtain ⟨h1, h2⟩ := (Config.sinFn SinFn.witness).bound x h
  rw [B64.le_iff] at h1 h2
  refine ⟨hf, ?_⟩
  have k1 : B64.minusOne.key = -(B64.oneValue.mag : Int) := by decide
  have k2 : B64.oneValue.key = (B64.oneValue.mag : Int) := by decide
  have hk : (Config.sin x).key = (Config.sin x).mag ∨ (Config.sin x).key = -((Config.sin x).mag : Int) := by
    unfold B64.key; split
    · exact .inr rfl
    · exact .inl rfl
  have g1 : B64.minusOne.key ≤ (Config.sin x).key := h1.2.2
  have g2 : (Config.sin x).key ≤ B64.oneValue.key := h2.2.2
  omega

theorem sin_zero : Config.sin B64.zero = B64.zero := (Config.sinFn SinFn.witness).zero

theorem twoPi_spec : Config.twoPi.isFinite = true ∧ Config.twoPi.neg = false ∧
    Config.twoPi.units ≤ 2 ^ 3 * B64.one := by decide +kernel

/-- `TWO_PI × phase` is finite and at most 8.0 (R95, R97). -/
theorem twoPi_mul_phase {p : B64} (h : phaseLegal p) :
    (B64.mul Config.twoPi p).isFinite = true ∧ (B64.mul Config.twoPi p).mag ≤ B64.powMag 3 := by
  obtain ⟨t1, _, t3⟩ := twoPi_spec
  rw [B64.mul_finite t1 h.1]
  have hle : Config.twoPi.units * p.units ≤ magUnits 52 (B64.powMag 3) * B64.one := by
    rw [B64.magUnits_powMag]
    exact Nat.mul_le_mul t3 (phase_units_le h)
  obtain ⟨f1, _, f3⟩ := B64.ofRatio_le (Config.twoPi.neg != p.neg) B64.one_pos
    (B64.powMag_lt_infMag (by norm_num)) hle
  exact ⟨f1, f3⟩

/-- R95: a sine sample at a legal phase is finite and at most 1.0 in magnitude. -/
theorem sineSample_bounded {s : State} (h : phaseLegal s.phase) :
    (sineSample s).isFinite = true ∧ (sineSample s).mag ≤ B64.oneValue.mag :=
  sin_bounded (twoPi_mul_phase h).1

/-! ### The sawtooth's sum -/

/-- R97: the term of a harmonic up to `2^128` is finite and at most 1.0 in magnitude. -/
theorem sawTerm_bounded {wp : B64} (hw : wp.isFinite = true) (hwm : wp.mag ≤ B64.powMag 3) {i : Nat}
    (h0 : 0 < i) (hi : i ≤ 2 ^ 128) :
    (sawTerm wp i).isFinite = true ∧ (sawTerm wp i).units * 2 ≤ B64.one := by
  obtain ⟨n1, n2⟩ := B64.ofInt_le (e := 128) (by norm_num) hi
  have n3 := B64.one_le_ofInt h0
  have hp : (B64.mul wp (B64.ofInt (i : Int))).isFinite = true := by
    rw [B64.mul_finite hw n1.1]
    have u1 : wp.units ≤ 2 ^ 3 * B64.one := by rw [← B64.magUnits_powMag]; exact magUnits_le_iff.2 hwm
    have u2 : (B64.ofInt (i : Int)).units ≤ 2 ^ 128 * B64.one := by
      rw [← B64.magUnits_powMag]; exact magUnits_le_iff.2 n2
    have hle : wp.units * (B64.ofInt (i : Int)).units ≤ magUnits 52 (B64.powMag 131) * B64.one := by
      rw [B64.magUnits_powMag]
      refine le_trans (Nat.mul_le_mul u1 u2) (le_of_eq ?_)
      rw [show (131 : Nat) = 3 + 128 from rfl, pow_add]
      ring
    exact (B64.ofRatio_le _ B64.one_pos (B64.powMag_lt_infMag (by norm_num)) hle).1
  obtain ⟨s1, s2⟩ := sin_bounded hp
  obtain ⟨d1, d2, _⟩ := div_ge_one s1 n1.1 n3
  obtain ⟨t1, t2, t3, t4⟩ := two_spec
  unfold sawTerm
  rw [B64.div_finite d1 t2 t3, t4]
  have du : (B64.div (Config.sin (B64.mul wp (B64.ofInt (i : Int)))) (B64.ofInt (i : Int))).units ≤ B64.one := by
    rw [← B64.oneValue_units]; exact B64.units_le_iff.2 (by omega)
  obtain ⟨m, hm⟩ := exists_mag (p := 52) (a := 1) 1073 (by norm_num)
  have hone : B64.one = magUnits 52 m * 2 := by
    rw [hm]; unfold B64.one; rw [Nat.one_mul, ← pow_succ]
  have hmi : m < B64.infMag := by
    by_contra hc
    push Not at hc
    have h1 : magUnits 52 (B64.powMag 0) ≤ magUnits 52 m :=
      magUnits_le_iff.2 (le_trans (B64.powMag_lt_infMag (by norm_num)).le hc)
    rw [B64.magUnits_powMag] at h1
    have := B64.one_pos
    omega
  have hle : (B64.div (Config.sin (B64.mul wp (B64.ofInt (i : Int)))) (B64.ofInt (i : Int))).units * B64.one ≤
      magUnits 52 m * (2 * B64.one) := by
    refine le_trans (Nat.mul_le_mul_right _ du) (le_of_eq ?_)
    rw [← Nat.mul_assoc, ← hone]
  obtain ⟨f1, _, f3⟩ := B64.ofRatio_le
    ((B64.div (Config.sin (B64.mul wp (B64.ofInt (i : Int)))) (B64.ofInt (i : Int))).neg != B64.two.neg)
    (Nat.mul_pos (by norm_num) B64.one_pos) hmi hle
  exact ⟨f1, le_trans (Nat.mul_le_mul_right 2 (magUnits_le_iff.2 f3)) hone.symm.le⟩

/-- The largest sum: adding at most one half to `2^53` rounds back to `2^53`. -/
theorem round_limit : roundMag 52 (2 ^ 53 * B64.one + 2 ^ 1073) 1 = B64.powMag 53 := by decide +kernel

/-- R97, R102: every partial sum is finite and at most `2^53` in magnitude. -/
theorem sawSum_bounded {wp : B64} (hw : wp.isFinite = true) (hwm : wp.mag ≤ B64.powMag 3) {n : Nat}
    (hn : n ≤ 2 ^ 128) : (sawSum wp n).isFinite = true ∧ (sawSum wp n).mag ≤ B64.powMag 53 := by
  induction n with
  | zero =>
    show B64.zero.isFinite = true ∧ B64.zero.mag ≤ B64.powMag 53
    exact ⟨by decide, by decide⟩
  | succ n ih =>
    obtain ⟨i1, i2⟩ := ih (by omega)
    obtain ⟨t1, t2⟩ := sawTerm_bounded hw hwm (i := n + 1) (by omega) hn
    have hlim := B64.powMag_lt_infMag (e := 53) (by norm_num)
    have u1 : (sawSum wp n).units ≤ 2 ^ 53 * B64.one := by
      rw [← B64.magUnits_powMag]; exact magUnits_le_iff.2 i2
    have u2 : (sawTerm wp (n + 1)).units ≤ 2 ^ 1073 := by
      have : B64.one = 2 ^ 1073 * 2 := by unfold B64.one; rw [← pow_succ]
      omega
    have hv : ((sawSum wp n).value + (sawTerm wp (n + 1)).value).natAbs ≤ 2 ^ 53 * B64.one + 2 ^ 1073 := by
      refine le_trans (Int.natAbs_add_le _ _) ?_
      rw [B64.value_natAbs, B64.value_natAbs]
      omega
    have hr : roundMag 52 ((sawSum wp n).value + (sawTerm wp (n + 1)).value).natAbs 1 ≤ B64.powMag 53 := by
      rw [← round_limit]
      exact roundMag_mono (by norm_num) (by norm_num) (by omega)
    have hm := B64.add_finite_mag i1 t1
    show (B64.add (sawSum wp n) (sawTerm wp (n + 1))).isFinite = true ∧
      (B64.add (sawSum wp n) (sawTerm wp (n + 1))).mag ≤ B64.powMag 53
    rw [B64.isFinite_iff, hm]
    exact ⟨lt_of_le_of_lt (le_trans (min_le_left _ _) hr) hlim, le_trans (min_le_left _ _) hr⟩

/-- R97, R98: a sawtooth sample at a legal phase, a legal rate and a finite frequency is finite and bounded. -/
theorem sawSample_bounded {s : State} {r : B32} (hp : phaseLegal s.phase) (hr : rateLegal r = true)
    (hf : s.frequency.isFinite = true) :
    (sawSample r.toB64 s).isFinite = true ∧ (sawSample r.toB64 s).mag ≤ B64.powMag 53 := by
  unfold sawSample
  split
  · rename_i hg
    obtain ⟨w1, w2⟩ := twoPi_mul_phase hp
    obtain ⟨r1, r2, _, r4, _⟩ := toB64_exact hr
    obtain ⟨c1, c2, c3⟩ := harmonicCount_eq r1 r2 hf hg
    apply sawSum_bounded w1 w2
    rw [c1]
    have h1 : (B64.div (B64.div r.toB64 B64.two) s.frequency).units ≤ 2 ^ 128 * B64.one := by
      rw [← B64.magUnits_powMag]; exact magUnits_le_iff.2 (by omega)
    have h2 := Nat.div_le_div_right (c := B64.one) h1
    rw [Nat.mul_div_cancel _ B64.one_pos] at h2
    omega
  · exact ⟨by decide, by decide⟩

/-- A sample of at most `2^53` converts to a finite binary32 (R145). -/
theorem toB32_finite {x : B64} (hf : x.isFinite = true) (h : x.mag ≤ B64.powMag 53) :
    x.toB32.isFinite = true := by
  have hu : x.units ≤ 2 ^ 53 * B64.one := by
    rw [← B64.magUnits_powMag]; exact magUnits_le_iff.2 h
  have hm : 2 ^ 53 * B64.one = magUnits 23 ((127 + 53) * 2 ^ 23) * B32.unitInB64 := by decide +kernel
  have hr : roundMag 23 x.units B32.unitInB64 ≤ (127 + 53) * 2 ^ 23 :=
    roundMag_le (by unfold B32.unitInB64; positivity) (by omega)
  have hx : x.toB32 = B32.pack x.neg (roundMag 23 x.units B32.unitInB64) := by
    have hi : B32.infMag = 255 * 2 ^ 23 := by decide
    unfold B64.toB32 B32.ofRatio
    rw [B64.not_nan_of_finite hf, B64.not_inf_of_finite hf]
    simp only [Bool.false_eq_true, if_false]
    rw [Nat.min_eq_left (by rw [hi]; omega)]
  have hmag : x.toB32.mag = roundMag 23 x.units B32.unitInB64 := by
    rw [hx]
    unfold B32.mag B32.pack
    simp only [BitVec.toNat_ofNat]
    cases x.neg <;> simp <;> omega
  have hi : B32.infMag = 255 * 2 ^ 23 := by decide
  unfold B32.isFinite
  rw [hmag, hi]
  simp only [decide_eq_true_eq]
  omega

/-- R148: the binary32 value of a sample at a legal phase, a legal rate and a finite frequency is finite, whichever
oscillator the core contains. -/
theorem nextSample_finite {s : State} {r : B32} (hp : phaseLegal s.phase) (hr : rateLegal r = true)
    (hf : s.frequency.isFinite = true) : (nextSample r.toB64 s).1.toB32.isFinite = true := by
  have h1 : B64.oneValue.mag ≤ B64.powMag 53 := by decide
  unfold nextSample
  cases Config.oscKind
  · obtain ⟨a, b⟩ := sineSample_bounded hp
    exact toB32_finite a (le_trans b h1)
  · obtain ⟨a, b⟩ := sawSample_bounded hp hr hf
    exact toB32_finite a b

/-- At phase 0.0 every term and every sum is 0.0 (R97, R192). -/
theorem sineSample_zero {s : State} (h : s.phase = B64.zero) : sineSample s = B64.zero := by
  unfold sineSample
  rw [h]
  have : B64.mul Config.twoPi B64.zero = B64.zero := by decide +kernel
  rw [this, sin_zero]

/-! ### The duration counter -/

/-- R25, R144: below `2^53` the counter rises by exactly one; at `2^53` it stays. -/
theorem duration_succ {k : Nat} (h : k < 2 ^ 53) :
    B64.add (B64.ofInt (k : Int)) B64.oneValue = B64.ofInt ((k + 1 : Nat) : Int) := by
  obtain ⟨a1, a2⟩ := B64.ofInt_le (e := 53) (by norm_num) h.le
  obtain ⟨b1, b2⟩ := B64.ofInt_nat (k + 1)
  have hu := B64.ofInt_units h
  obtain ⟨m1, m2⟩ := B64.add_nonneg a1 oneValue_nonneg
  rw [hu, B64.oneValue_units] at m1
  have e : k * B64.one + B64.one = (k + 1) * B64.one := by ring
  rw [e] at m1
  apply B64.ext_sign_mag
  · rw [b1]
    by_contra hc
    have hc' : (B64.add (B64.ofInt (k : Int)) B64.oneValue).neg = true := by simpa using hc
    have h1 := (m2 hc').2.1
    have h2 : B64.oneValue.neg = false := by decide
    rw [h2] at h1
    cases h1
  · rw [m1, b2]

theorem duration_saturates : B64.add (B64.ofInt ((2 ^ 53 : Nat) : Int)) B64.oneValue = B64.ofInt ((2 ^ 53 : Nat) : Int) := by
  decide +kernel

end Sys2Proof.Machine
end

