-- ==== Sys2Proof/Tests/Slice0.lean ====
section
/-!
SUPPORT. Tests with expected values from spec/95_test_vectors.md or worked by hand from the encodings of
30_encoding.md, and one witness for the hypotheses of each statement.
-/

/- The checks below run one after another, so that their kernel evaluations do not compete for memory. -/
set_option Elab.async false

namespace Sys2Proof.Tests

open Sys2Proof Sys2Proof.Machine

/-- A field of the next state an outcome answers. -/
def after {α : Type} (o : Host.Outcome State Fault Refusal) (f : State → α) : Option α :=
  match o with
  | .next t => some (f t)
  | .fault _ => none
  | .refused _ => none

/-- A state that is sounding a note, at 44100 samples per second. -/
def playing (frequency phase : BitVec 64) (note : Byte) : State :=
  { State.reset with
    frequency := ⟨frequency⟩, phase := ⟨phase⟩, currentNote := some note, sampleRate := some ⟨0x40E5888000000000#64⟩ }

/-- The state SET_SAMPLE_RATE 44100.0 and NOTE_ON 69 leave. -/
def playing69 : State :=
  { State.reset with
    frequency := pitchToFreq 69#8, currentNote := some 69#8, sampleRate := some (B32.toB64 ⟨0x472C4400#32⟩) }

/-! ### Well-formedness: an ill-formed term for each check -/

theorem test_ignored_note_off_status_ill_formed : ¬ WellFormed (.ignored 0x80#8 64#8 0#8) := by decide

theorem test_ignored_note_on_status_ill_formed : ¬ WellFormed (.ignored 0x90#8 69#8 64#8) := by decide

theorem test_ignored_other_status_well_formed : WellFormed (.ignored 0x91#8 69#8 100#8) := by decide

/-! ### Decoding: words written out from the encodings of 30_encoding.md (R60, R61, R63, R68), one for every constructor -/

/-- `01` rate=0x472C4400 (P1). -/
theorem test_decode_set_sample_rate :
    decode (.command 0b00000001#8 [0b01000111001011000100010000000000]) = .ok (.setSampleRate ⟨0x472C4400#32⟩) := by decide

/-- `02` L=3 `90 3C 40` `90 40 40` `80 3C 00` (P2). -/
theorem test_decode_handle_events :
    decode (.command 0b00000010#8 [3, 0x90, 0x3C, 0x40, 0x90, 0x40, 0x40, 0x80, 0x3C, 0x00]) =
      .ok (.handleEvents [⟨0x90#8, 60#8, 0x40#8⟩, ⟨0x90#8, 64#8, 0x40#8⟩, ⟨0x80#8, 60#8, 0#8⟩]) := by decide

/-- `03` n=4 c=2 (P1). -/
theorem test_decode_render : decode (.command 0b00000011#8 [4, 2]) = .ok (.render 4 2) := by decide

/-- `80 40 7F` (V-D): pattern `10000000 nnnnnnnn vvvvvvvv`. -/
theorem test_decode_note_off : decodeTableWord 24 0b100000000100000001111111 = some (.noteOff 64#8 0x7F#8) := by decide

/-- `90 45 00` (V-D): pattern `10010000 nnnnnnnn vvvvvvvv`; velocity 0 is still a note-on. -/
theorem test_decode_note_on : decodeTableWord 24 0b100100000100010100000000 = some (.noteOn 69#8 0#8) := by decide

/-- `9F 45 64`, `81 40 00`, `00 00 00` and `FF FF FF` (V-D) are ignored. -/
theorem test_decode_ignored :
    decode (.event 0x9F#8 0x45#8 0x64#8) = .ok (.ignored 0x9F#8 0x45#8 0x64#8) ∧
    decode (.event 0x81#8 0x40#8 0x00#8) = .ok (.ignored 0x81#8 0x40#8 0x00#8) ∧
    decode (.event 0x00#8 0x00#8 0x00#8) = .ok (.ignored 0x00#8 0x00#8 0x00#8) ∧
    decode (.event 0xFF#8 0xFF#8 0xFF#8) = .ok (.ignored 0xFF#8 0xFF#8 0xFF#8) := by decide

/-- The internal rows of R68, each by its name and operand. -/
theorem test_decode_internal :
    decode (.invoke .pitchToFreq [69]) = .ok (.pitchToFreq 69#8) ∧
    decode (.invoke .changeFrequency [0x407B800000000000]) = .ok (.changeFrequency ⟨0x407B800000000000#64⟩) ∧
    decode (.invoke .nextSample []) = .ok .nextSample ∧
    decode (.invoke .nextSampleSine []) = .ok .nextSampleSine ∧
    decode (.invoke .nextSampleSaw []) = .ok .nextSampleSaw ∧
    decode (.invoke .harmonicCount []) = .ok .harmonicCount ∧
    decode (.invoke .phaseAdvance []) = .ok .phaseAdvance := by decide

/-- An illegal tag (R65), a batch cut short, a byte value above 255 and a rate of 33 bits are rejected by name. -/
theorem test_decode_rejects :
    decode (.command 0x04#8 [1, 2]) = .error (.badCommand 0x04#8) ∧
    decode (.command 0x02#8 [1, 0x90, 0x45]) = .error (.badOperands 0x02#8) ∧
    decode (.command 0x02#8 [1, 0x90, 0x100, 0x40]) = .error (.badOperands 0x02#8) ∧
    decode (.command 0x01#8 [0x100000000]) = .error (.badOperands 0x01#8) := by decide

/-- `block` and the short forms of R67 (P4). -/
theorem test_assembler_block :
    asmExpand (.block [.noteon 69#8 none, .noteoff 60#8 none] 2 1) =
      [.handleEvents [⟨0x90#8, 69#8, 0x40#8⟩, ⟨0x80#8, 60#8, 0x00#8⟩], .render 2 1] := by decide

/-! ### Reset, fetching and stepping -/

/-- R191. -/
theorem test_reset : State.reset.currentNote = none ∧ State.reset.sampleRate = none ∧
    State.reset.refused = false ∧ State.reset.frequency = ⟨0#64⟩ := by decide

/-- A table word placed by `withFetchWord` is the next instruction run: NOTE_ON 69 starts the note. -/
theorem test_step_runs_table_word :
    after (step (State.reset.withFetchWord 24 0x904540)) (fun t => (t.currentNote, t.inbox)) = some (some 69#8, []) := by
  decide +kernel

/-- R164: an illegal tag is refused as BAD_COMMAND (code 4). -/
theorem test_step_bad_command :
    after (step (State.reset.issue (.command 0x00#8 []))) (fun t => (t.refused, t.refusal.map RefusalReason.code)) =
      some (true, some 4) := by decide +kernel

/-- R43: the byte image of 44100.0 (0x472C4400) in each byte order. -/
theorem test_slot_bytes : B32.bytes .little ⟨0x472C4400#32⟩ = [0x00#8, 0x44#8, 0x2C#8, 0x47#8] ∧
    B32.bytes .big ⟨0x472C4400#32⟩ = [0x47#8, 0x2C#8, 0x44#8, 0x00#8] := by decide

/-! ### SET_SAMPLE_RATE (V-H) -/

theorem test_set_sample_rate :
    after (exec (.setSampleRate ⟨0x472C4400#32⟩) State.reset) State.sampleRate = some (some ⟨0x40E5888000000000#64⟩) ∧
    after (exec (.setSampleRate ⟨0x00000001#32⟩) State.reset) State.sampleRate = some (some ⟨0x36A0000000000000#64⟩) := by
  decide +kernel

theorem test_set_sample_rate_refuses :
    after (exec (.setSampleRate ⟨0x00000000#32⟩) State.reset) State.refused = some true ∧
    after (exec (.setSampleRate ⟨0x80000000#32⟩) State.reset) State.refused = some true ∧
    after (exec (.setSampleRate ⟨0xC72C4400#32⟩) State.reset) State.refused = some true ∧
    after (exec (.setSampleRate ⟨0x7F800000#32⟩) State.reset) State.refused = some true ∧
    after (exec (.setSampleRate ⟨0x7FC00000#32⟩) State.reset) State.refused = some true := by decide +kernel

/-! ### HANDLE_EVENTS -/

/-- V-N: noteon 60; noteon 64; noteoff 60 leaves Sounding(64). -/
theorem test_handle_events_keeps_second_note :
    after (exec (.handleEvents [⟨0x90#8, 60#8, 64#8⟩, ⟨0x90#8, 64#8, 64#8⟩, ⟨0x80#8, 60#8, 0#8⟩]) State.reset)
      State.noteState = some (.sounding 64#8) := by decide +kernel

/-- P6, second variant: noteon 60; msg 0x90, 200, 64; noteon 64. -/
theorem test_handle_events_stops :
    after (exec (.handleEvents [⟨0x90#8, 60#8, 64#8⟩, ⟨0x90#8, 200#8, 64#8⟩, ⟨0x90#8, 64#8, 64#8⟩]) State.reset)
      (fun t => (t.noteState, t.refused, t.refusal)) =
      some (.sounding 60#8, true, some (.noteRange 1 ⟨0x90#8, 200#8, 64#8⟩)) := by decide +kernel

/-! ### RENDER (V-R) -/

/-- Reset, render 3, 2: six slots of +0.0. -/
theorem test_render_idle :
    after (exec (.render 3 2) State.reset) State.out =
      some [⟨0, 0, ⟨0#32⟩⟩, ⟨0, 1, ⟨0#32⟩⟩, ⟨0, 2, ⟨0#32⟩⟩, ⟨1, 0, ⟨0#32⟩⟩, ⟨1, 1, ⟨0#32⟩⟩, ⟨1, 2, ⟨0#32⟩⟩] := by
  decide +kernel

/-- Sounding(69), phase 0, 44100, render 3, 0: phase 0.029931972789115645, duration 3.0. -/
theorem test_render_no_channels :
    after (exec (.render 3 0) (playing 0x407B800000000000#64 0#64 69#8)) (fun t => (t.phase, t.noteDuration)) =
      some (⟨0x3F9EA67CB0EFA143#64⟩, ⟨0x4008000000000000#64⟩) := by
  show some ((renderSounding _ 0 _ 3).phase, (renderSounding _ 0 _ 3).noteDuration) = _
  rw [renderSounding_phase, renderSounding_duration]
  decide +kernel

/-! ### Events -/

/-- A retrigger resets the duration and keeps the phase (R121). -/
theorem test_note_on :
    after (exec (.noteOn 69#8 0#8) { playing 0x407B800000000000#64 0x3FD0000000000000#64 69#8 with
      noteDuration := ⟨0x4014000000000000#64⟩ }) (fun t => (t.currentNote, t.noteDuration, t.phase)) =
      some (some 69#8, ⟨0#64⟩, ⟨0x3FD0000000000000#64⟩) := by decide +kernel

/-- V-D: `90 C8 40` is refused. -/
theorem test_note_on_refused :
    after (exec (.noteOn 200#8 0x40#8) State.reset) (fun t => (t.currentNote, t.refused)) = some (none, true) := by
  decide +kernel

/-- V-D: `80 40 00` and `80 3C 00` from Sounding(64). -/
theorem test_note_off :
    after (exec (.noteOff 64#8 0#8) (playing 0#64 0#64 64#8)) State.noteState = some .idle ∧
    after (exec (.noteOff 60#8 0#8) (playing 0#64 0#64 64#8)) State.noteState = some (.sounding 64#8) := by
  decide +kernel

/-- V-D: `B0 07 64` from Sounding(64). -/
theorem test_ignored :
    after (exec (.ignored 0xB0#8 7#8 100#8) (playing 0#64 0#64 64#8)) id = some (playing 0#64 0#64 64#8) := by
  decide +kernel

/-! ### Internal operations -/

/-- R80: PITCH_TO_FREQ(60) has q = -0.75; pitch 69 has q = 0.0. -/
theorem test_pitch_quotient : pitchQuotient 60#8 = ⟨0xBFE8000000000000#64⟩ ∧ pitchQuotient 69#8 = ⟨0#64⟩ := by
  decide +kernel

/-- X2: with EXP2(1.0) = 2.0 the product with 440.0 is 880.0. -/
theorem test_pitch_octave : B64.mul (B64.pow2 1) B64.a440 = ⟨0x408B800000000000#64⟩ := by decide +kernel

/-- V-C: the phase is kept. -/
theorem test_change_frequency :
    after (exec (.changeFrequency ⟨0x408B800000000000#64⟩) (playing 0x407B800000000000#64 0x3FD0000000000000#64 69#8))
      (fun t => (t.frequency, t.phase)) = some (⟨0x408B800000000000#64⟩, ⟨0x3FD0000000000000#64⟩) := by decide +kernel

/-- V-E1: the phase after the first sample, 0.009977324263038548, whichever variant runs. -/
theorem test_next_sample :
    after (exec .nextSample (playing 0x407B800000000000#64 0#64 69#8)) State.phase =
      some ⟨0x3F846EFDCB4A6B82#64⟩ := by
  rw [exec_nextSample (sr := ⟨0x40E5888000000000#64⟩) rfl]
  show some (nextSample _ _).2.phase = _
  rw [nextSample_state]
  decide +kernel

/-- V-E1: the phase after the second sample, 0.019954648526077097. -/
theorem test_next_sample_sine :
    after (exec .nextSampleSine (playing 0x407B800000000000#64 0x3F846EFDCB4A6B82#64 69#8)) State.phase =
      some ⟨0x3F946EFDCB4A6B82#64⟩ := by decide +kernel

/-- V-S1: the argument of the sine at phase 0.25 is 1.5707963267948966. -/
theorem test_sine_argument :
    B64.mul Config.twoPi ⟨0x3FD0000000000000#64⟩ = ⟨0x3FF921FB54442D18#64⟩ := by decide +kernel

/-- V-S: at frequency 1.0 the guard fails (the test is `>`); at 22050.5 no harmonic is below the Nyquist limit. -/
theorem test_next_sample_saw_silent :
    after (exec .nextSampleSaw (playing 0x3FF0000000000000#64 0x3FD3333333333333#64 69#8)) State.returned =
      some (.float ⟨0#64⟩) ∧
    after (exec .nextSampleSaw (playing 0x40D588A000000000#64 0x3FD3333333333333#64 69#8)) State.returned =
      some (.float ⟨0#64⟩) := by decide +kernel

/-- V-P and V-S at 44100: 440.0 gives 50, 11025.0 gives 2, 11025.5 gives 1. -/
theorem test_harmonic_count :
    after (exec .harmonicCount (playing 0x407B800000000000#64 0#64 69#8)) State.returned = some (.int 50) ∧
    after (exec .harmonicCount (playing 0x40C5888000000000#64 0#64 69#8)) State.returned = some (.int 2) ∧
    after (exec .harmonicCount (playing 0x40C588C000000000#64 0#64 69#8)) State.returned = some (.int 1) := by
  decide +kernel

/-- V-A: 0.9 with 8820.0 gives 0.10000000000000009. -/
theorem test_phase_advance_wraps :
    after (exec .phaseAdvance (playing 0x40C13A0000000000#64 0x3FECCCCCCCCCCCCD#64 69#8)) State.phase =
      some ⟨0x3FB99999999999A0#64⟩ := by decide +kernel

/-- V-A: 1 - 2^-53 with an increment of 2^-54 rounds up to 1.0 and becomes 0.0. -/
theorem test_phase_advance_rounds_up :
    after (exec .phaseAdvance { playing 0x3FF0000000000000#64 0x3FEFFFFFFFFFFFFF#64 69#8 with
      sampleRate := some ⟨0x4350000000000000#64⟩ }) State.phase = some ⟨0#64⟩ := by decide +kernel

/-! ### Witnesses: a state and operands that meet the hypotheses of each statement, at the ends of their ranges -/

theorem test_witness_step_runs_decoded :
    let s := State.reset.issue (.command 0x03#8 [4, 2])
    s.refused = false ∧ s.inbox = .command 0x03#8 [4, 2] :: [] ∧
      decode (.command 0x03#8 [4, 2]) = .ok (.render 4 2) ∧ WellFormed (.render 4 2) := by decide

theorem test_witness_waiting : State.reset.refused = false ∧ State.reset.inbox = [] := by decide

theorem test_witness_refused : (State.reset.raise (.badCommand 0#8)).refused = true := by decide

/-- The tags on both sides of the legal ones. -/
theorem test_witness_unknown_tag :
    (State.reset.issue (.command 0x00#8 [])).refused = false ∧
    (State.reset.issue (.command 0x00#8 [])).inbox = .command 0x00#8 [] :: [] ∧
    (State.reset.issue (.command 0x04#8 [7])).inbox = .command 0x04#8 [7] :: [] ∧
    (∀ tag ∈ [0x00#8, 0x04#8, 0xFF#8], tag ≠ 0x01#8 ∧ tag ≠ 0x02#8 ∧ tag ≠ 0x03#8) := by decide

theorem test_witness_decode_of_encode :
    WellFormed (.ignored 0x7F#8 0#8 0xFF#8) ∧ WellFormed (.noteOn 255#8 0#8) ∧
    WellFormed (.setSampleRate ⟨0xFFFFFFFF#32⟩) ∧ WellFormed (.handleEvents []) := by decide

theorem test_witness_encode_of_decode :
    decode (.command 0x02#8 [1, 0xFF, 0x00, 0xFF]) = .ok (.handleEvents [⟨0xFF#8, 0#8, 0xFF#8⟩]) := by decide

/-- Each of the three clauses, and the statuses next to the two that match. -/
theorem test_witness_status_byte :
    (∃ st : Byte, st = 0x80#8) ∧ (∃ st : Byte, st = 0x90#8) ∧
    ∀ st ∈ [0x00#8, 0x7F#8, 0x81#8, 0x8F#8, 0x91#8, 0xFF#8], st ≠ 0x80#8 ∧ st ≠ 0x90#8 :=
  ⟨⟨_, rfl⟩, ⟨_, rfl⟩, by decide⟩

/-- The smallest and the largest legal rate. -/
theorem test_witness_rate_legal :
    (∀ r ∈ [B32.mk 0x00000001#32, B32.mk 0x472C4400#32, B32.mk 0x7F7FFFFF#32],
      r.isFinite = true ∧ r.positive = true ∧ rateLegal r = true) ∧
    ∀ r ∈ [B32.mk 0x00000000#32, B32.mk 0x80000001#32, B32.mk 0x7F800000#32, B32.mk 0x7F800001#32],
      ¬ (r.isFinite = true ∧ r.positive = true) := by decide

theorem test_witness_widening :
    (B32.mk 0x00000000#32).isFinite = true ∧ (B32.mk 0xFF7FFFFF#32).isFinite = true := by decide

/-- A batch with notes at 127, and one with a note at 128 after it. -/
theorem test_witness_batches :
    (∀ e ∈ [Event.mk 0x90#8 127#8 0#8, Event.mk 0x80#8 200#8 0#8], e.status = 0x90#8 → e.data1.toNat ≤ 127) ∧
    (Event.mk 0x90#8 128#8 0#8).status = 0x90#8 ∧ 127 < (Event.mk 0x90#8 128#8 0#8).data1.toNat ∧
    ∀ e ∈ [Event.mk 0xB0#8 7#8 100#8, Event.mk 0x91#8 69#8 100#8], e.status ≠ 0x80#8 ∧ e.status ≠ 0x90#8 := by decide

theorem test_witness_velocity :
    [Event.mk 0x90#8 60#8 0#8, Event.mk 0x80#8 60#8 9#8].map (fun e => (e.status, e.data1)) =
      [Event.mk 0x90#8 60#8 127#8, Event.mk 0x80#8 60#8 0#8].map (fun e => (e.status, e.data1)) := by decide

/-- Commands that deliver NOTE_ON(60), NOTE_ON(64), NOTE_OFF(60) and NOTE_OFF(60) again in three batches, with an ignored
message, two SET_SAMPLE_RATEs and a RENDER between. -/
def stealing : List Instr :=
  [.setSampleRate ⟨0x472C4400#32⟩, .handleEvents [⟨0x90#8, 60#8, 1#8⟩, ⟨0xB0#8, 7#8, 100#8⟩, ⟨0x90#8, 64#8, 2#8⟩],
    .setSampleRate ⟨0x473B8000#32⟩, .render 0 1, .handleEvents [⟨0x80#8, 60#8, 3#8⟩], .handleEvents [⟨0x80#8, 60#8, 0#8⟩]]

/-- The hypotheses, and each clause's list of messages, delivered by a run that ends with the mark clear. -/
theorem test_witness_note_stealing :
    60#8 ≠ (64#8 : Byte) ∧ (60#8 : Byte).toNat ≤ 127 ∧ (64#8 : Byte).toNat ≤ 127 ∧ (127#8 : Byte).toNat ≤ 127 ∧
    (∀ e ∈ [Event.mk 0x80#8 60#8 0#8], e.status ≠ 0x90#8 ∧ (e.status = 0x80#8 → e.data1 ≠ 64#8)) ∧
    (∀ i ∈ stealing ++ [.handleEvents []], (encode i).isCommand = true) ∧
    stealing.flatMap noteMessages =
      [⟨0x90#8, 60#8, 1#8⟩, ⟨0x90#8, 64#8, 2#8⟩, ⟨0x80#8, 60#8, 3#8⟩] ++ [⟨0x80#8, 60#8, 0#8⟩] ∧
    noteMessages (.handleEvents [⟨0x80#8, 64#8, 4#8⟩]) = [⟨0x80#8, 64#8, 4#8⟩] ∧
    noteMessages (.handleEvents [⟨0x90#8, 127#8, 4#8⟩]) = [⟨0x90#8, 127#8, 4#8⟩] := by decide

theorem test_witness_note_stealing_not_refused :
    ∀ last ∈ [[], [Event.mk 0x80#8 64#8 4#8], [Event.mk 0x90#8 127#8 4#8]],
      after (execAll (stealing ++ [.handleEvents last]) State.reset) State.refused = some false := by decide +kernel

/-- 1.0 and -3.0 are finite, and -3.0 is no zero. -/
theorem test_witness_arithmetic :
    (B64.mk 0x3FF0000000000000#64).isFinite = true ∧ (B64.mk 0xC008000000000000#64).isFinite = true ∧
    0 < (B64.mk 0xC008000000000000#64).mag := by decide

/-- Idle; sounding with a rate; sounding without one. -/
theorem test_witness_render :
    State.reset.currentNote = none ∧ State.reset.sampleRate = none ∧
    (playing 0#64 0#64 69#8).currentNote = some 69#8 ∧
    (playing 0#64 0#64 69#8).sampleRate = some ⟨0x40E5888000000000#64⟩ ∧
    (playing 0#64 0#64 69#8).sampleRate ≠ none ∧
    { State.reset with currentNote := some 69#8 }.currentNote = some 69#8 ∧
    { State.reset with currentNote := some 69#8 }.sampleRate = none := by decide

/-- A slot inside a block of 2 channels by 3 samples, and the first slots outside on either side. -/
theorem test_witness_block_edges :
    (1 < 2 ∧ 2 < 3) ∧ ¬ (2 < 2 ∧ 2 < 3) ∧ ¬ (1 < 2 ∧ 3 < 3) := by decide

/-- The reset state and the state of a sounding core meet the invariant; the second is not Idle and has a rate. -/
theorem test_witness_invariant : Inv playing69 ∧ playing69.currentNote = some 69#8 ∧ playing69.sampleRate ≠ none := by
  refine ⟨⟨?_, .inr ⟨69#8, by decide, rfl⟩, by unfold phaseLegal; decide, ⟨0, by decide, by decide +kernel⟩, ?_,
    List.Pairwise.nil, ?_, ?_⟩, rfl, Option.some_ne_none _⟩
  · rintro n ⟨⟩
    exact ⟨by decide, rfl⟩
  · intro sr h
    exact ⟨⟨0x472C4400#32⟩, by decide, (Option.some.inj h).symm⟩
  · intro a h
    cases h
  · intro p h
    cases h

/-- The two ends of the counter's range, in a sounding state with a rate. -/
theorem test_witness_duration :
    let s := { playing 0#64 0#64 69#8 with noteDuration := ⟨0x4340000000000000#64⟩ }
    s.currentNote = some 69#8 ∧ s.sampleRate = some ⟨0x40E5888000000000#64⟩ ∧
    s.noteDuration = B64.ofInt ((2 ^ 53 : Nat) : Int) ∧ (2 ^ 53 : Nat) ≤ 2 ^ 53 ∧
    (playing 0#64 0#64 69#8).noteDuration = B64.ofInt ((0 : Nat) : Int) := by decide +kernel

theorem test_witness_note_range : (127#8 : Byte).toNat ≤ 127 ∧ 127 < (128#8 : Byte).toNat := by decide

theorem test_witness_note_off :
    (playing 0#64 0#64 64#8).currentNote = some 64#8 ∧ (playing 0#64 0#64 64#8).currentNote ≠ some 60#8 ∧
    State.reset.currentNote ≠ some 0#8 := by decide

theorem test_witness_pitches :
    (-5 : Int) ≤ -5 ∧ (4 : Int) ≤ 4 ∧ (0#8 : Byte).toNat ≤ (127#8 : Byte).toNat ∧ (127#8 : Byte).toNat ≤ 127 := by decide

/-- 0.0, a value below 1.0 and one above. -/
theorem test_witness_fract :
    ∀ x ∈ [B64.mk 0#64, B64.mk 0x3FEFFFFFFFFFFFFF#64, B64.mk 0x7FEFFFFFFFFFFFFF#64],
      x.isFinite = true ∧ B64.le ⟨0#64⟩ x = true := by decide

/-- Frequencies at and above the guard: 1.0 fails it, the next value passes. -/
theorem test_witness_guard :
    B64.le ⟨0x3FF0000000000000#64⟩ Config.sawEpsHz = true ∧
    B64.lt ⟨0x3FF0000000000000#64⟩ (B64.mk 0x3FF0000000000001#64) = true ∧
    (B64.mk 0x3FF0000000000001#64).isFinite = true := by decide

/-- 440.0 and 441.0 (X6) at 44100.0. -/
theorem test_witness_harmonic_order :
    rateLegal ⟨0x472C4400#32⟩ = true ∧ (B64.mk 0x407B800000000000#64).isFinite = true ∧
    (B64.mk 0x407B900000000000#64).isFinite = true ∧ B64.lt Config.sawEpsHz ⟨0x407B800000000000#64⟩ = true ∧
    B64.lt ⟨0x407B800000000000#64⟩ ⟨0x407B900000000000#64⟩ = true := by decide

/-- The rate of `playing` is the widened 44100.0, a legal rate; the phase is 0.0, the frequency finite and above the
guard. -/
theorem test_witness_rate_widened :
    rateLegal ⟨0x472C4400#32⟩ = true ∧
    (playing 0x407B800000000000#64 0#64 69#8).sampleRate = some (B32.toB64 ⟨0x472C4400#32⟩) ∧
    (playing 0x407B800000000000#64 0#64 69#8).phase = ⟨0#64⟩ ∧
    (playing 0x407B800000000000#64 0#64 69#8).frequency.isFinite = true ∧
    B64.lt ⟨0x3FF0000000000000#64⟩ (playing 0x407B800000000000#64 0#64 69#8).frequency = true := by decide +kernel

/-- The two ends of the legal phases. -/
theorem test_witness_phase : phaseLegal ⟨0#64⟩ ∧ phaseLegal ⟨0x3FEFFFFFFFFFFFFF#64⟩ := by
  unfold phaseLegal; decide

/-- Two cores that differ in everything but phase, frequency and rate. -/
theorem test_witness_same_oscillator :
    let s := playing 0x407B800000000000#64 0#64 69#8
    let u := { s with currentNote := none, noteDuration := ⟨0x4000000000000000#64⟩ }
    s.sampleRate = some ⟨0x40E5888000000000#64⟩ ∧ u.sampleRate = some ⟨0x40E5888000000000#64⟩ ∧
      s.phase = u.phase ∧ s.frequency = u.frequency := by decide

/-- A refused instruction that is no batch, from a state with the mark clear, and one run with the mark set. -/
theorem test_witness_refusal :
    exec (.noteOn 128#8 0#8) State.reset = .next (State.reset.raise (.noteRange 0 ⟨0x90#8, 128#8, 0#8⟩)) ∧
    State.reset.refused = false ∧ (∀ es, Instr.noteOn 128#8 0#8 ≠ .handleEvents es) ∧
    exec (.render 0 0) (State.reset.raise (.badCommand 0#8)) = .next (State.reset.raise (.badCommand 0#8)) :=
  ⟨rfl, rfl, fun _ => nofun, rfl⟩

/-- A step from reset with a command pending, and the two ways a reachable state comes about. -/
theorem test_witness_reachable :
    Reachable (State.reset.issue (.command 0x03#8 [0, 0])) ∧
    step (State.reset.issue (.command 0x03#8 [0, 0])) = .next State.reset ∧ State.reset.out.wf :=
  ⟨.issue _ .reset rfl, rfl, List.Pairwise.nil⟩

/-- A tie: 2 and 3 (twice a unit over 2) are equally near to 5/2, and the even one is taken. -/
theorem test_witness_rounding :
    roundMag 1 5 2 = 2 ∧ magUnits 1 2 = 2 ∧ magUnits 1 3 = 3 ∧
    ((5 : Int) - (magUnits 1 (roundMag 1 5 2) * 2 : Nat)).natAbs = ((5 : Int) - (magUnits 1 3 * 2 : Nat)).natAbs := by
  decide

end Sys2Proof.Tests
end

/-!
PROOF. The Sounding flag and the NoteState as functions of the current note (10_state.md R24): what they say of
`x[current_note]`, and what NOTE_ON, a matching NOTE_OFF and RENDER do with them.
-/

namespace Sys2Proof.Machine

/-! ### The flag and the NoteState read the current note -/

theorem State.sounding_eq_false_iff (s : State) : s.sounding = false ↔ s.currentNote = none :=
  Option.isSome_eq_false_iff.trans Option.isNone_iff_eq_none

theorem State.sounding_of_currentNote {s : State} {n : Byte} (h : s.currentNote = some n) : s.sounding = true :=
  Option.isSome_of_mem h

theorem State.noteState_eq_idle_iff (s : State) : s.noteState = .idle ↔ s.currentNote = none := by
  unfold State.noteState
  cases s.currentNote <;> simp

theorem State.noteState_eq_sounding_iff (s : State) (n : Byte) :
    s.noteState = .sounding n ↔ s.currentNote = some n := by
  unfold State.noteState
  cases s.currentNote <;> simp

/-! ### The instructions that write the flag and the one that reads it -/

/-- R121: a NOTE_ON up to 127 is applied, and its note is held afterwards. -/
theorem exec_noteOn_legal {note : Byte} (h : note.toNat ≤ 127) (velocity : Byte) (s : State) :
    exec (.noteOn note velocity) s =
      .next (changeFrequency (pitchToFreq note) ((s.setNote (some note)).setDuration B64.zero)) := by
  have legal : noteLegal note = true := decide_eq_true h
  show Host.Outcome.next (s.settle (noteOn 0 note velocity s)) = _
  rw [noteOn, if_pos legal, State.settle_ok]

/-- R122: a NOTE_OFF of the held note ends it. -/
theorem exec_noteOff_held {s : State} {note : Byte} (h : s.currentNote = some note) (velocity : Byte) :
    exec (.noteOff note velocity) s = .next (s.setNote none) :=
  congrArg Host.Outcome.next (if_pos h)

/-- R140, R141: with a rate set RENDER is not refused, and the block it renders is the one the current note selects. -/
theorem exec_render_of_rate {s : State} {sr : B64} (h : s.sampleRate = some sr) (numSamples numChannels : Nat) :
    exec (.render numSamples numChannels) s =
      .next (if s.sounding then renderSounding sr numChannels s numSamples
        else renderIdle numChannels s numSamples) := by
  show Host.Outcome.next (s.settle (render numSamples numChannels s)) = _
  cases hn : s.currentNote with
  | none => rw [render_idle hn, State.settle_ok, (State.sounding_eq_false_iff s).2 hn]; rfl
  | some note => rw [render_sounding hn h, State.settle_ok, if_pos (State.sounding_of_currentNote hn)]

/-- R141: an Idle block leaves the phase alone. -/
theorem renderIdle_phase (numChannels : Nat) (s : State) (numSamples : Nat) :
    (renderIdle numChannels s numSamples).phase = s.phase := by
  rw [renderIdle_eq, State.setOut_phase]

/-- Settles O33: the flag and the NoteState split on the current note alone, and each instruction's clause follows from
what it does to, or by, that note. -/
theorem soundingFlagFollowsTheNote : Obligations.SoundingFlagFollowsTheNote := by
  unfold Obligations.SoundingFlagFollowsTheNote
  refine ⟨fun s => ⟨s.noteState_eq_idle_iff, s.sounding_eq_false_iff, s.noteState_eq_sounding_iff⟩,
    (State.sounding_eq_false_iff _).2 rfl, ?noteOn, ?noteOff, ?render⟩
  case noteOn =>
    exact fun note velocity s h => ⟨_, exec_noteOn_legal h velocity s, State.sounding_of_currentNote rfl⟩
  case noteOff =>
    exact fun note velocity s h => ⟨_, exec_noteOff_held h velocity, (State.sounding_eq_false_iff _).2 rfl⟩
  case render =>
    intro numSamples numChannels s sr h
    refine ⟨_, exec_render_of_rate h numSamples numChannels, ?_⟩
    rw [apply_ite State.phase, renderSounding_phase, renderIdle_phase]

end Sys2Proof.Machine

/-!
PROOF. The decode of an event packet by its status byte (30_encoding.md R61).
-/

namespace Sys2Proof

/-- The two exact matches of R61 are the only statuses no IGNORED message carries. -/
theorem wellFormed_ignored_iff (status data1 data2 : Byte) :
    WellFormed (.ignored status data1 data2) ↔ status ≠ 0x80#8 ∧ status ≠ 0x90#8 := by
  simp only [WellFormed, Instr.wellFormed, Bool.and_eq_true, bne_iff_ne]

/-- Settles O10: an event packet with one of R61's two statuses is the packet of that note message, one with any other
status is the packet of a well-formed IGNORED message, and each decodes back to its message. -/
theorem statusByteAloneSelectsTheEvent : Obligations.StatusByteAloneSelectsTheEvent := by
  unfold Obligations.StatusByteAloneSelectsTheEvent
  intro status data1 data2
  refine ⟨?noteOff, ?noteOn, ?ignored⟩
  case noteOff =>
    rintro rfl
    exact Laws.RoundTrip.noteOff data1 data2 rfl
  case noteOn =>
    rintro rfl
    exact Laws.RoundTrip.noteOn data1 data2 rfl
  case ignored =>
    intro notOff notOn
    exact Laws.RoundTrip.ignored status data1 data2 ((wellFormed_ignored_iff ..).2 ⟨notOff, notOn⟩)

end Sys2Proof

/-!
PROOF. Messages (42_note_state.md): a message that touches no held note, the last message of a batch, and the held note
and its frequency over a list of host commands.
-/

namespace Sys2Proof.Machine

/-! ### One message and one more message -/

/-- R122, R123: a message that is no NOTE_ON and no NOTE_OFF of the held note changes nothing. -/
theorem eventEffect_of_no_note {s : State} {e : Event} (notOn : e.status ≠ 0x90#8)
    (notHeld : e.status = 0x80#8 → s.currentNote ≠ some e.data1) : eventEffect s e = s := by
  unfold eventEffect
  by_cases off : e.status = 0x80#8
  · rw [if_pos off, if_neg (notHeld off)]
  · rw [if_neg off, if_neg notOn]

/-- R61, R120: the operation a message decodes to is the message applied as event 0. -/
theorem exec_decodeEvent (e : Event) (s : State) :
    exec (decodeEvent e) s = .next (s.settle (applyEvent 0 e s)) := by
  obtain ⟨status, data1, data2⟩ := e
  unfold decodeEvent applyEvent
  by_cases off : status = 0x80#8
  · subst off; rfl
  · by_cases on : status = 0x90#8
    · subst on; rfl
    · have other : eventKind status = .ignored := by rw [eventKind, if_neg off, if_neg on]
      simp only [other]
      rfl

/-- A batch of one is its message applied, or refused (R15, R161). -/
theorem applyEvents_singleton (index : Nat) (e : Event) (s : State) :
    applyEvents index [e] s = s.settle (applyEvent index e s) := by
  unfold applyEvents
  cases applyEvent index e s <;> rfl

/-- R161: a last message is run in the state the unrefused messages before it left. -/
theorem exec_handleEvents_snoc {events : List Event} (legal : ∀ b ∈ events, b.status = 0x90#8 → b.data1.toNat ≤ 127)
    (e : Event) (s : State) :
    exec (.handleEvents (events ++ [e])) s =
      .next ((events.foldl eventEffect s).settle (applyEvent events.length e (events.foldl eventEffect s))) := by
  show Host.Outcome.next (applyEvents 0 (events ++ [e]) s) = _
  rw [applyEvents_append events [e] 0 s legal, applyEvents_singleton, Nat.zero_add]

/-- R125: a batch without a NOTE_ON above 127 is the fold of its messages' effects. -/
theorem exec_handleEvents_legal {events : List Event} (legal : ∀ b ∈ events, b.status = 0x90#8 → b.data1.toNat ≤ 127)
    (s : State) : exec (.handleEvents events) s = .next (events.foldl eventEffect s) := by
  have h := applyEvents_append events [] 0 s legal
  rw [List.append_nil] at h
  exact congrArg Host.Outcome.next h

/-- Settles O15: the last message's number is all that sets the batch apart from the message run alone, and only a
refusal records it. -/
theorem eventsAreAppliedInListOrder : Obligations.EventsAreAppliedInListOrder := by
  unfold Obligations.EventsAreAppliedInListOrder
  refine ⟨fun s => rfl, fun events e s legal => ?_⟩
  refine ⟨decodeEvent e, _, _, _, rfl, exec_handleEvents_legal legal s, exec_decodeEvent e _,
    exec_handleEvents_snoc legal e s, ?_⟩
  by_cases last : e.status = 0x90#8 → e.data1.toNat ≤ 127
  · rw [applyEvent_legal _ e _ last, applyEvent_legal _ e _ last]
    exact ⟨rfl, fun _ => rfl⟩
  · obtain ⟨on, above⟩ := Classical.not_imp.1 last
    rw [applyEvent_illegal _ e _ on (Nat.lt_of_not_le above), applyEvent_illegal _ e _ on (Nat.lt_of_not_le above)]
    exact ⟨rfl, fun h => absurd h last⟩

/-- Settles O30: the message is well formed as IGNORED, so it decodes back to itself, and has no effect in a batch. -/
theorem ignoredMessageChangesNothing : Obligations.IgnoredMessageChangesNothing := by
  unfold Obligations.IgnoredMessageChangesNothing
  intro status data1 data2 s notOff notOn
  refine ⟨Laws.RoundTrip.ignored status data1 data2 ((wellFormed_ignored_iff ..).2 ⟨notOff, notOn⟩), rfl, ?_⟩
  have noEffect : eventEffect s ⟨status, data1, data2⟩ = s :=
    eventEffect_of_no_note notOn fun off => absurd off notOff
  have legal : ∀ e ∈ [Event.mk status data1 data2], e.status = 0x90#8 → e.data1.toNat ≤ 127 := by
    rintro e he on
    rw [List.mem_singleton.1 he] at on
    exact absurd on notOn
  rw [exec_handleEvents_legal legal, List.foldl_cons, List.foldl_nil, noEffect]

/-! ### The held note and its frequency over host commands -/

/-- If the mark is clear in `t`, it was clear in `s`, and the note and the frequency of `t` are those the messages alone
leave from `s`. -/
def Delivers (messages : List Event) (s t : State) : Prop :=
  t.refused = false → s.refused = false ∧
    t.currentNote = (messages.foldl eventEffect s).currentNote ∧
    t.frequency = (messages.foldl eventEffect s).frequency

/-- A refusal ends every claim about the messages (R166). -/
theorem Delivers.raise {messages : List Event} {s u : State} {r : RefusalReason} :
    Delivers messages s (u.raise r) :=
  fun h => nomatch h

/-- Messages applied one after another are delivered. -/
theorem Delivers.foldl (messages : List Event) (s : State) :
    Delivers messages s (messages.foldl eventEffect s) := by
  have mark : (messages.foldl eventEffect s).refused = s.refused := by
    induction messages generalizing s with
    | nil => rfl
    | cons e es ih => exact (ih _).trans (eventEffect_frame s e).2.2.1
  exact fun h => ⟨mark.symm.trans h, rfl, rfl⟩

/-- The note and the frequency after some messages depend on the note and the frequency before them alone. -/
theorem foldl_eventEffect_congr (messages : List Event) {s u : State} (hn : s.currentNote = u.currentNote)
    (hf : s.frequency = u.frequency) :
    (messages.foldl eventEffect s).currentNote = (messages.foldl eventEffect u).currentNote ∧
      (messages.foldl eventEffect s).frequency = (messages.foldl eventEffect u).frequency := by
  induction messages generalizing s u with
  | nil => exact ⟨hn, hf⟩
  | cons e es ih =>
    obtain ⟨en, ef⟩ := eventEffect_congr e hn hf
    exact ih en ef

theorem Delivers.append {first rest : List Event} {s t u : State} (h : Delivers first s t)
    (h' : Delivers rest t u) : Delivers (first ++ rest) s u := by
  intro hu
  obtain ⟨ht, un, uf⟩ := h' hu
  obtain ⟨hs, tn, tf⟩ := h ht
  obtain ⟨fn, ff⟩ := foldl_eventEffect_congr rest tn tf
  rw [List.foldl_append]
  exact ⟨hs, un.trans fn, uf.trans ff⟩

/-- R149: RENDER, refused or not, delivers no message. -/
theorem render_delivers (numSamples numChannels : Nat) (s : State) :
    Delivers [] s (s.settle (render numSamples numChannels s)) := by
  cases hn : s.currentNote with
  | none =>
    rw [render_idle hn, State.settle_ok, renderIdle_eq]
    exact fun h => ⟨h, rfl, rfl⟩
  | some note =>
    cases hs : s.sampleRate with
    | some sr =>
      rw [render_sounding hn hs, State.settle_ok]
      obtain ⟨frequency, currentNote, -, refused, -⟩ := renderSounding_frame sr numChannels s numSamples
      exact fun h => ⟨refused.symm.trans h, currentNote, frequency⟩
    | none =>
      rcases Nat.eq_zero_or_pos numSamples with rfl | nonempty
      · rw [render_empty, State.settle_ok]
        exact Delivers.foldl [] s
      · rw [render_unset hn hs nonempty, State.settle_error]
        exact Delivers.raise

/-- R160: SET_SAMPLE_RATE, refused or not, delivers no message. -/
theorem setSampleRate_delivers (rate : B32) (s : State) : Delivers [] s (s.settle (setSampleRate rate s)) := by
  unfold setSampleRate
  split
  · exact fun h => ⟨h, rfl, rfl⟩
  · exact Delivers.raise

/-- R120, R161: a batch delivers its NOTE_ON and NOTE_OFF messages, or is refused. -/
theorem applyEvents_delivers (events : List Event) (s : State) :
    Delivers (noteMessages (.handleEvents events)) s (applyEvents 0 events s) := by
  rcases applyEvents_cases events 0 s with ⟨applied, -⟩ | ⟨first, e, rest, -, -, -, -, refused⟩
  · rw [applied, foldl_noteMessages]
    exact Delivers.foldl _ s
  · rw [refused]
    exact Delivers.raise

/-- Every host command answers a next state and delivers its messages. -/
theorem exec_command_delivers {i : Instr} (command : (encode i).isCommand = true) (s : State) :
    ∃ t, exec i s = .next t ∧ Delivers (noteMessages i) s t := by
  cases i with
  | setSampleRate rate => exact ⟨_, rfl, setSampleRate_delivers rate s⟩
  | handleEvents events => exact ⟨_, rfl, applyEvents_delivers events s⟩
  | render numSamples numChannels => exact ⟨_, rfl, render_delivers numSamples numChannels s⟩
  | _ => cases command

/-- R49, R162: so does a list of them. -/
theorem execAll_delivers {commands : List Instr} (host : ∀ i ∈ commands, (encode i).isCommand = true) (s : State) :
    ∃ t, execAll commands s = .next t ∧ Delivers (commands.flatMap noteMessages) s t := by
  induction commands generalizing s with
  | nil => exact ⟨s, rfl, Delivers.foldl [] s⟩
  | cons i rest ih =>
    obtain ⟨hi, hrest⟩ := List.forall_mem_cons.1 host
    obtain ⟨t, ht, delivers_i⟩ := exec_command_delivers hi s
    obtain ⟨u, hu, delivers_rest⟩ := ih hrest t
    exact ⟨u, (execAll_cons ht rest).trans hu, delivers_i.append delivers_rest⟩

/-! ### Note stealing -/

/-- A held note stays through messages that are no NOTE_ON and no NOTE_OFF of it; so does the rest of the state. -/
theorem foldl_eventEffect_of_held {messages : List Event} {s : State} {b : Byte} (held : s.currentNote = some b)
    (others : ∀ e ∈ messages, e.status ≠ 0x90#8 ∧ (e.status = 0x80#8 → e.data1 ≠ b)) :
    messages.foldl eventEffect s = s := by
  induction messages with
  | nil => rfl
  | cons e es ih =>
    obtain ⟨⟨notOn, notOffB⟩, rest⟩ := List.forall_mem_cons.1 others
    have notHeld : e.status = 0x80#8 → s.currentNote ≠ some e.data1 := fun off eq =>
      notOffB off (Option.some.inj (eq.symm.trans held))
    rw [List.foldl_cons, eventEffect_of_no_note notOn notHeld, ih rest]

/-- R126: the second NOTE_ON takes the core, and the first note's NOTE_OFF is one of the messages that leave it. -/
theorem foldl_eventEffect_stealing {a b : Byte} (v1 v2 v3 : Byte) {later : List Event} (s : State) (different : a ≠ b)
    (others : ∀ e ∈ later, e.status ≠ 0x90#8 ∧ (e.status = 0x80#8 → e.data1 ≠ b)) :
    List.foldl eventEffect s ([⟨0x90#8, a, v1⟩, ⟨0x90#8, b, v2⟩, ⟨0x80#8, a, v3⟩] ++ later) =
      eventEffect (eventEffect s ⟨0x90#8, a, v1⟩) ⟨0x90#8, b, v2⟩ := by
  have others' : ∀ e ∈ Event.mk 0x80#8 a v3 :: later, e.status ≠ 0x90#8 ∧ (e.status = 0x80#8 → e.data1 ≠ b) :=
    List.forall_mem_cons.2 ⟨⟨(by decide : (0x80#8 : Byte) ≠ 0x90#8), fun _ => different⟩, others⟩
  exact foldl_eventEffect_of_held (s := eventEffect (eventEffect s ⟨0x90#8, a, v1⟩) ⟨0x90#8, b, v2⟩) rfl others'

/-- R122: a NOTE_OFF of the held note ends it. -/
theorem eventEffect_noteOff_held {s : State} {n : Byte} (held : s.currentNote = some n) (velocity : Byte) :
    (eventEffect s ⟨0x80#8, n, velocity⟩).currentNote = none := by
  show (if s.currentNote = some n then _ else s).currentNote = none
  rw [if_pos held]

/-- Settles O32: commands leave the note and the frequency their messages alone leave, and the messages are folded. -/
theorem noteStealingIsKept : Obligations.NoteStealingIsKept := by
  unfold Obligations.NoteStealingIsKept
  intro a b v1 v2 v3 v4 later commands s different _ _ others host
  obtain ⟨t, run, delivers⟩ := execAll_delivers host s
  refine ⟨t, run, fun notRefused => ?_⟩
  obtain ⟨-, note, frequency⟩ := delivers notRefused
  have stolen := foldl_eventEffect_stealing v1 v2 v3 s different others
  refine ⟨fun messages => ?kept, fun messages => ?ended, fun c _ messages => ?replaced, fun messages => ?single⟩ <;>
    rw [messages] at note frequency
  case kept =>
    rw [stolen] at note frequency
    exact ⟨(t.noteState_eq_sounding_iff b).2 note, frequency⟩
  case ended =>
    rw [List.foldl_append, stolen] at note
    exact t.noteState_eq_idle_iff.2 (note.trans (eventEffect_noteOff_held rfl v4))
  case replaced =>
    rw [List.foldl_append] at note
    exact (t.noteState_eq_sounding_iff c).2 note
  case single =>
    exact t.noteState_eq_idle_iff.2 (note.trans (eventEffect_noteOff_held rfl v2))

end Sys2Proof.Machine

/-!
PROOF. The encoding (30_encoding.md sections 1 and 2): decoding an encoded instruction, and encoding a decoded packet.
-/

namespace Sys2Proof

/-- Settles O8: by the constructor of the instruction, each with its own round trip. -/
theorem decodeOfEncodeIsTheInstruction : Obligations.DecodeOfEncodeIsTheInstruction := by
  unfold Obligations.DecodeOfEncodeIsTheInstruction
  intro i
  cases i with
  | setSampleRate rate => exact Laws.RoundTrip.setSampleRate rate
  | handleEvents events => exact Laws.RoundTrip.handleEvents events
  | render numSamples numChannels => exact Laws.RoundTrip.render numSamples numChannels
  | noteOff note velocity => exact Laws.RoundTrip.noteOff note velocity
  | noteOn note velocity => exact Laws.RoundTrip.noteOn note velocity
  | ignored status data1 data2 => exact Laws.RoundTrip.ignored status data1 data2
  | pitchToFreq pitch => exact Laws.RoundTrip.pitchToFreq pitch
  | changeFrequency freq => exact Laws.RoundTrip.changeFrequency freq
  | nextSample => exact Laws.RoundTrip.nextSample
  | nextSampleSine => exact Laws.RoundTrip.nextSampleSine
  | nextSampleSaw => exact Laws.RoundTrip.nextSampleSaw
  | harmonicCount => exact Laws.RoundTrip.harmonicCount
  | phaseAdvance => exact Laws.RoundTrip.phaseAdvance

/-! ### The instruction a packet decodes to encodes to that packet -/

theorem encode_of_decodeRate {operands : List Nat} {i : Instr} (h : decodeRate operands = some i) :
    WellFormed i ∧ encode i = .command 0x01#8 operands := by
  unfold decodeRate at h
  split at h
  case h_1 r =>
    split at h
    · rename_i small
      cases h
      exact ⟨rfl, by rw [encode, BitVec.toNat_ofNat, Nat.mod_eq_of_lt small]⟩
    · cases h
  case h_2 => cases h

theorem encode_of_decodeBatch {operands : List Nat} {i : Instr} (h : decodeBatch operands = some i) :
    WellFormed i ∧ encode i = .command 0x02#8 operands := by
  cases operands with
  | nil => cases h
  | cons l bytes =>
    cases messages : decodeMessages bytes with
    | none => simp [decodeBatch, messages] at h
    | some events =>
      simp only [decodeBatch, messages, Option.ite_none_right_eq_some, Option.some.injEq] at h
      obtain ⟨rfl, rfl⟩ := h
      exact ⟨rfl, by rw [encode, encode_decodeMessages bytes events messages]⟩

theorem encode_of_decodeBlock {operands : List Nat} {i : Instr} (h : decodeBlock operands = some i) :
    WellFormed i ∧ encode i = .command 0x03#8 operands := by
  unfold decodeBlock at h
  split at h
  · cases h
    exact ⟨rfl, rfl⟩
  · cases h

/-- R63: only the three tags have operands, each read in its own way. -/
theorem decodeOperands_cases {tag : Byte} {read : List Nat → Option Instr} (h : decodeOperands tag = some read) :
    (tag = 0x01#8 ∧ read = decodeRate) ∨ (tag = 0x02#8 ∧ read = decodeBatch) ∨
      (tag = 0x03#8 ∧ read = decodeBlock) := by
  unfold decodeOperands at h
  split_ifs at h with rate batch block <;> cases h
  · exact .inl ⟨rate, rfl⟩
  · exact .inr (.inl ⟨batch, rfl⟩)
  · exact .inr (.inr ⟨block, rfl⟩)

theorem encode_of_decode_command {tag : Byte} {operands : List Nat} {i : Instr}
    (h : decode (.command tag operands) = .ok i) : WellFormed i ∧ encode i = .command tag operands := by
  cases selected : decodeOperands tag with
  | none => simp [decode, selected] at h
  | some read =>
    have reads : read operands = some i := by
      cases result : read operands with
      | none => simp [decode, selected, result] at h
      | some j => simpa [decode, selected, result] using h
    rcases decodeOperands_cases selected with ⟨rfl, rfl⟩ | ⟨rfl, rfl⟩ | ⟨rfl, rfl⟩
    · exact encode_of_decodeRate reads
    · exact encode_of_decodeBatch reads
    · exact encode_of_decodeBlock reads

/-- R61, R62: a message is kept, and only a status that is no note's is IGNORED. -/
theorem encode_decodeEvent (e : Event) :
    WellFormed (decodeEvent e) ∧ encode (decodeEvent e) = .event e.status e.data1 e.data2 := by
  obtain ⟨status, data1, data2⟩ := e
  by_cases off : status = 0x80#8
  · subst off
    exact ⟨rfl, rfl⟩
  · by_cases on : status = 0x90#8
    · subst on
      exact ⟨rfl, rfl⟩
    · have other : decodeEvent ⟨status, data1, data2⟩ = .ignored status data1 data2 := by
        simp [decodeEvent, eventKind, off, on]
      rw [other]
      exact ⟨(wellFormed_ignored_iff ..).2 ⟨off, on⟩, rfl⟩

theorem encode_of_decodeInvoke {op : InternalOp} {operands : List Nat} {i : Instr}
    (h : decodeInvoke op operands = some i) : WellFormed i ∧ encode i = .invoke op operands := by
  unfold decodeInvoke at h
  split at h
  case h_1 p =>
    split at h
    · rename_i small
      cases h
      exact ⟨rfl, by rw [encode, BitVec.toNat_ofNat, Nat.mod_eq_of_lt small]⟩
    · cases h
  case h_2 f =>
    split at h
    · rename_i small
      cases h
      exact ⟨rfl, by rw [encode, BitVec.toNat_ofNat, Nat.mod_eq_of_lt small]⟩
    · cases h
  case h_3 | h_4 | h_5 | h_6 | h_7 =>
    cases h
    exact ⟨rfl, rfl⟩
  case h_8 => cases h

/-- Settles O9: by the kind of packet, and for a command by its tag. -/
theorem encodeOfDecodeIsThePacket : Obligations.EncodeOfDecodeIsThePacket := by
  unfold Obligations.EncodeOfDecodeIsThePacket
  intro p i h
  cases p with
  | command tag operands => exact encode_of_decode_command h
  | event status data1 data2 =>
    cases h
    exact encode_decodeEvent ⟨status, data1, data2⟩
  | invoke op operands =>
    cases result : decodeInvoke op operands with
    | none => simp [decode, result] at h
    | some j =>
      simp only [decode, result, Except.ok.injEq] at h
      exact encode_of_decodeInvoke (result.trans (congrArg some h))

/-- Settles O11: the decoder evaluated on each of the six words. -/
theorem tableWordsDecodeAsWritten : Obligations.TableWordsDecodeAsWritten := by
  unfold Obligations.TableWordsDecodeAsWritten
  decide

end Sys2Proof

/-!
PROOF. Reset and fetching (70_reset_and_hazards.md section 1, 20_memory.md section 4): the reset state, and what a step
takes from the inbox.
-/

namespace Sys2Proof.Machine

/-- Settles O1: the reset state evaluated field by field; an empty buffer reads as no value. -/
theorem resetLeavesTheseValues : Obligations.ResetLeavesTheseValues := by
  unfold Obligations.ResetLeavesTheseValues
  exact ⟨rfl, rfl, rfl, rfl, rfl, rfl, rfl, rfl, rfl, rfl, OutBuffer.read_nil⟩

theorem zero_phaseLegal : phaseLegal B64.zero := by
  unfold phaseLegal
  decide

theorem zero_eq_ofInt : B64.zero = B64.ofInt ((0 : Nat) : Int) := by decide +kernel

/-- Settles O2: at reset nothing sounds, the registers are 0.0, and OUT and the inbox are empty. -/
theorem resetMeetsInvariant : Obligations.ResetMeetsInvariant := by
  unfold Obligations.ResetMeetsInvariant
  exact {
    note := nofun
    frequency := .inl rfl
    phase := zero_phaseLegal
    duration := ⟨0, Nat.zero_le _, zero_eq_ofInt⟩
    rate := nofun
    outCanonical := List.Pairwise.nil
    outFinite := nofun
    commands := nofun }

/-! ### What a step takes -/

theorem State.fetch_pending {s : State} {p : Packet} {rest : List Packet} (clear : s.refused = false)
    (pending : s.inbox = p :: rest) : s.fetch = .taken p (s.setInbox rest) := by
  simp [State.fetch, clear, pending]

theorem step_of_decode_ok {s : State} {p : Packet} {rest : List Packet} {i : Instr} (clear : s.refused = false)
    (pending : s.inbox = p :: rest) (ok : decode p = .ok i) : step s = exec i (s.setInbox rest) := by
  simp [step, State.fetch_pending clear pending, ok]

theorem step_of_decode_error {s : State} {p : Packet} {rest : List Packet} {e : DecodeError} (clear : s.refused = false)
    (pending : s.inbox = p :: rest) (error : decode p = .error e) : step s = (s.setInbox rest).reject e := by
  simp [step, State.fetch_pending clear pending, error]

/-- R65: an unknown tag is rejected before any operand is looked at. -/
theorem decode_unknown_tag {tag : Byte} (operands : List Nat) (notRate : tag ≠ 0x01#8) (notBatch : tag ≠ 0x02#8)
    (notBlock : tag ≠ 0x03#8) : decode (.command tag operands) = .error (.badCommand tag) := by
  simp [decode, decodeOperands, notRate, notBatch, notBlock]

/-- Settles O3: the transaction that decodes is the one a step takes, well formed or not. -/
theorem stepRunsTheDecodedInstruction : Obligations.StepRunsTheDecodedInstruction := by
  unfold Obligations.StepRunsTheDecodedInstruction
  intro s p rest i clear pending ok _
  exact step_of_decode_ok clear pending ok

/-- Settles O4: with an empty inbox a step finds nothing to take. -/
theorem waitingCoreKeepsEverything : Obligations.WaitingCoreKeepsEverything := by
  unfold Obligations.WaitingCoreKeepsEverything
  intro s clear empty
  have waiting : s.fetch = .waiting := by simp [State.fetch, clear, empty]
  rw [step, waiting]
  rfl

/-- Settles O5: a step looks at the mark before the inbox. -/
theorem refusedRunTakesNoStep : Obligations.RefusedRunTakesNoStep := by
  unfold Obligations.RefusedRunTakesNoStep
  intro s marked
  have ended : s.fetch = .ended := if_pos marked
  rw [step, ended]

/-- Settles O6: the tag decodes to BAD_COMMAND, and the step refuses it. -/
theorem unknownTagIsBadCommand : Obligations.UnknownTagIsBadCommand := by
  unfold Obligations.UnknownTagIsBadCommand
  intro s tag operands rest clear pending notRate notBatch notBlock
  exact step_of_decode_error clear pending (decode_unknown_tag operands notRate notBatch notBlock)

end Sys2Proof.Machine

/-!
PROOF. What one instruction can do, said once (`Does`), and what follows for every instruction: which fields it writes
(10_state.md section 1), what a refusal writes (60_exceptions.md section 1), and what it keeps of OUT (20_memory.md).
-/

namespace Sys2Proof.Machine

/-! ### What the shared operations leave alone -/

/-- R125: messages write the note, the duration and the frequency alone. -/
@[simp] theorem foldl_eventEffect_frame (events : List Event) (s : State) :
    (events.foldl eventEffect s).phase = s.phase ∧ (events.foldl eventEffect s).sampleRate = s.sampleRate ∧
    (events.foldl eventEffect s).refused = s.refused ∧ (events.foldl eventEffect s).refusal = s.refusal ∧
    (events.foldl eventEffect s).out = s.out ∧ (events.foldl eventEffect s).returned = s.returned ∧
    (events.foldl eventEffect s).inbox = s.inbox := by
  induction events generalizing s with
  | nil => simp
  | cons e es ih =>
    obtain ⟨phase, sampleRate, refused, refusal, out, returned, inbox⟩ := eventEffect_frame s e
    rw [List.foldl_cons, ← phase, ← sampleRate, ← refused, ← refusal, ← out, ← returned, ← inbox]
    exact ih (eventEffect s e)

/-- R141: an Idle block writes OUT alone. -/
@[simp] theorem renderIdle_frame (nc : Nat) (s : State) (n : Nat) :
    (renderIdle nc s n).frequency = s.frequency ∧ (renderIdle nc s n).phase = s.phase ∧
    (renderIdle nc s n).currentNote = s.currentNote ∧ (renderIdle nc s n).noteDuration = s.noteDuration ∧
    (renderIdle nc s n).sampleRate = s.sampleRate ∧ (renderIdle nc s n).refused = s.refused ∧
    (renderIdle nc s n).refusal = s.refusal ∧ (renderIdle nc s n).returned = s.returned ∧
    (renderIdle nc s n).inbox = s.inbox := by
  rw [renderIdle_eq]
  exact ⟨rfl, rfl, rfl, rfl, rfl, rfl, rfl, rfl, rfl⟩

/-- R142, R144: a Sounding block writes the phase, the duration and OUT alone. -/
theorem renderSounding_eq (sr : B64) (nc : Nat) (s : State) (n : Nat) :
    renderSounding sr nc s n =
      { s with phase := ((phaseAdvance sr)^[n] s).phase
               noteDuration := (fun d => B64.add d B64.oneValue)^[n] s.noteDuration
               out := (renderSounding sr nc s n).out } := by
  rw [← renderSounding_phase sr nc s n, ← renderSounding_duration sr nc s n]
  obtain ⟨frequency, currentNote, sampleRate, refused, refusal, returned, inbox⟩ := renderSounding_frame sr nc s n
  rw [← frequency, ← currentNote, ← sampleRate, ← refused, ← refusal, ← returned, ← inbox]

/-! ### What an instruction answers, by the case it is in -/

theorem exec_noteOn_illegal {note : Byte} (h : 127 < note.toNat) (velocity : Byte) (s : State) :
    exec (.noteOn note velocity) s = .next (s.raise (.noteRange 0 ⟨0x90#8, note, velocity⟩)) := by
  have illegal : ¬ noteLegal note = true := by simpa [noteLegal] using h
  show Host.Outcome.next (s.settle (noteOn 0 note velocity s)) = _
  rw [noteOn, if_neg illegal, State.settle_error]

theorem exec_noteOff_other {s : State} {note : Byte} (h : s.currentNote ≠ some note) (velocity : Byte) :
    exec (.noteOff note velocity) s = .next s :=
  congrArg Host.Outcome.next (if_neg h)

theorem exec_setSampleRate_legal {rate : B32} (h : rateLegal rate = true) (s : State) :
    exec (.setSampleRate rate) s = .next (s.setSampleRate rate.toB64) := by
  show Host.Outcome.next (s.settle (setSampleRate rate s)) = _
  rw [setSampleRate, if_pos h, State.settle_ok]

theorem exec_setSampleRate_illegal {rate : B32} (h : ¬ rateLegal rate = true) (s : State) :
    exec (.setSampleRate rate) s = .next (s.raise (.srInvalid rate)) := by
  show Host.Outcome.next (s.settle (setSampleRate rate s)) = _
  rw [setSampleRate, if_neg h, State.settle_error]

theorem exec_render_idle {s : State} (h : s.currentNote = none) (ns nc : Nat) :
    exec (.render ns nc) s = .next (renderIdle nc s ns) := by
  show Host.Outcome.next (s.settle (render ns nc s)) = _
  rw [render_idle h, State.settle_ok]

theorem exec_render_empty (nc : Nat) (s : State) : exec (.render 0 nc) s = .next s := by
  show Host.Outcome.next (s.settle (render 0 nc s)) = _
  rw [render_empty, State.settle_ok]

theorem exec_render_sounding {s : State} {note : Byte} {sr : B64} (h : s.currentNote = some note)
    (hs : s.sampleRate = some sr) (ns nc : Nat) :
    exec (.render ns nc) s = .next (renderSounding sr nc s ns) := by
  show Host.Outcome.next (s.settle (render ns nc s)) = _
  rw [render_sounding h hs, State.settle_ok]

theorem exec_render_unset {s : State} {note : Byte} (h : s.currentNote = some note) (hs : s.sampleRate = none)
    {ns : Nat} (hn : 0 < ns) (nc : Nat) :
    exec (.render ns nc) s = .next (s.raise (.srUnset (some ns))) := by
  show Host.Outcome.next (s.settle (render ns nc s)) = _
  rw [render_unset h hs hn, State.settle_error]

section
variable {s : State} (h : s.sampleRate = none)
include h

theorem exec_nextSample_unset : exec .nextSample s = .next (s.raise (.srUnset none)) :=
  congrArg Host.Outcome.next (State.withRate_none h _)

theorem exec_nextSampleSine_unset : exec .nextSampleSine s = .next (s.raise (.srUnset none)) :=
  congrArg Host.Outcome.next (State.withRate_none h _)

theorem exec_nextSampleSaw_unset : exec .nextSampleSaw s = .next (s.raise (.srUnset none)) :=
  congrArg Host.Outcome.next (State.withRate_none h _)

theorem exec_harmonicCount_unset : exec .harmonicCount s = .next (s.raise (.srUnset none)) :=
  congrArg Host.Outcome.next (State.withRate_none h _)

theorem exec_phaseAdvance_unset : exec .phaseAdvance s = .next (s.raise (.srUnset none)) :=
  congrArg Host.Outcome.next (State.withRate_none h _)

end

/-! ### What one instruction can do -/

/-- The internal operations that take the sample rate from the state (R92, R94 to R97). -/
def NeedsRate (i : Instr) : Prop :=
  i = .nextSample ∨ i = .nextSampleSine ∨ i = .nextSampleSaw ∨ i = .harmonicCount ∨ i = .phaseAdvance

/-- Each way an instruction can end, its condition, and the state it leaves: `exec_does` ties it to `exec`. -/
inductive Does (s : State) : Instr → State → Prop
  | setSampleRate (rate : B32) (legal : rateLegal rate = true) :
      Does s (.setSampleRate rate) (s.setSampleRate rate.toB64)
  | srInvalid (rate : B32) (illegal : ¬ rateLegal rate = true) :
      Does s (.setSampleRate rate) (s.raise (.srInvalid rate))
  | handleEvents (events : List Event) (legal : ∀ e ∈ events, e.status = 0x90#8 → e.data1.toNat ≤ 127) :
      Does s (.handleEvents events) (events.foldl eventEffect s)
  | handleEventsStops (first rest : List Event) (e : Event)
      (legal : ∀ e ∈ first, e.status = 0x90#8 → e.data1.toNat ≤ 127) (on : e.status = 0x90#8)
      (above : 127 < e.data1.toNat) :
      Does s (.handleEvents (first ++ e :: rest)) ((first.foldl eventEffect s).raise (.noteRange first.length e))
  | renderIdle (ns nc : Nat) (idle : s.currentNote = none ∨ ns = 0) : Does s (.render ns nc) (renderIdle nc s ns)
  | renderSounding (ns nc : Nat) (note : Byte) (sr : B64) (sounding : s.currentNote = some note)
      (rate : s.sampleRate = some sr) : Does s (.render ns nc) (renderSounding sr nc s ns)
  | srUnset (ns nc : Nat) (note : Byte) (sounding : s.currentNote = some note) (unset : s.sampleRate = none)
      (nonempty : 0 < ns) : Does s (.render ns nc) (s.raise (.srUnset (some ns)))
  | noteOff (note velocity : Byte) (held : s.currentNote = some note) :
      Does s (.noteOff note velocity) (s.setNote none)
  | noteOffKeeps (note velocity : Byte) (other : s.currentNote ≠ some note) : Does s (.noteOff note velocity) s
  | noteOn (note velocity : Byte) (legal : note.toNat ≤ 127) : Does s (.noteOn note velocity)
      (changeFrequency (pitchToFreq note) ((s.setNote (some note)).setDuration B64.zero))
  | noteRange (note velocity : Byte) (above : 127 < note.toNat) :
      Does s (.noteOn note velocity) (s.raise (.noteRange 0 ⟨0x90#8, note, velocity⟩))
  | ignored (status data1 data2 : Byte) : Does s (.ignored status data1 data2) s
  | pitchToFreq (pitch : Byte) : Does s (.pitchToFreq pitch) (s.give (.float (pitchToFreq pitch)))
  | changeFrequency (freq : B64) : Does s (.changeFrequency freq) (s.setFrequency freq)
  | nextSample (sr : B64) (rate : s.sampleRate = some sr) :
      Does s .nextSample ((phaseAdvance sr s).give (.float (nextSample sr s).1))
  | nextSampleSine (sr : B64) (rate : s.sampleRate = some sr) :
      Does s .nextSampleSine ((phaseAdvance sr s).give (.float (sineSample s)))
  | nextSampleSaw (sr : B64) (rate : s.sampleRate = some sr) :
      Does s .nextSampleSaw ((phaseAdvance sr s).give (.float (sawSample sr s)))
  | harmonicCount (sr : B64) (rate : s.sampleRate = some sr) :
      Does s .harmonicCount (s.give (.int (harmonicCount sr s.frequency)))
  | phaseAdvance (sr : B64) (rate : s.sampleRate = some sr) : Does s .phaseAdvance (phaseAdvance sr s)
  | noRate (i : Instr) (needs : NeedsRate i) (unset : s.sampleRate = none) : Does s i (s.raise (.srUnset none))

/-- R161: a batch is applied whole, or stops at its first refused message. -/
theorem handleEvents_does (events : List Event) (s : State) :
    Does s (.handleEvents events) (applyEvents 0 events s) := by
  rcases applyEvents_cases events 0 s with ⟨applied, legal⟩ | ⟨first, e, rest, rfl, legal, on, above, stopped⟩
  · rw [applied]
    exact .handleEvents events legal
  · rw [stopped, Nat.zero_add]
    exact .handleEventsStops first rest e legal on above

/-- R140, R141, R146, R147: RENDER's four cases: Idle, Sounding with a rate, an empty block, and the refused one. -/
theorem render_four_cases (ns : Nat) (s : State) :
    s.currentNote = none ∨ (∃ note sr, s.currentNote = some note ∧ s.sampleRate = some sr) ∨ ns = 0 ∨
      ∃ note, s.currentNote = some note ∧ s.sampleRate = none ∧ 0 < ns := by
  rcases Option.eq_none_or_eq_some s.currentNote with idle | ⟨note, sounding⟩
  · exact .inl idle
  · rcases Option.eq_none_or_eq_some s.sampleRate with unset | ⟨sr, rate⟩
    · rcases Nat.eq_zero_or_pos ns with empty | nonempty
      · exact .inr (.inr (.inl empty))
      · exact .inr (.inr (.inr ⟨note, sounding, unset, nonempty⟩))
    · exact .inr (.inl ⟨note, sr, sounding, rate⟩)

theorem render_does {ns nc : Nat} {s t : State} (h : exec (.render ns nc) s = .next t) : Does s (.render ns nc) t := by
  rcases render_four_cases ns s with idle | ⟨note, sr, sounding, rate⟩ | rfl | ⟨note, sounding, unset, nonempty⟩
  · cases (exec_render_idle idle ns nc).symm.trans h
    exact .renderIdle ns nc (.inl idle)
  · cases (exec_render_sounding sounding rate ns nc).symm.trans h
    exact .renderSounding ns nc note sr sounding rate
  · cases (exec_render_empty nc s).symm.trans h
    exact .renderIdle 0 nc (.inr rfl)
  · cases (exec_render_unset sounding unset nonempty nc).symm.trans h
    exact .srUnset ns nc note sounding unset nonempty

/-- An operation that takes the rate runs with it, or is refused (log entry 11). -/
theorem withRate_does {i : Instr} {s : State} {run : B64 → State} (needs : NeedsRate i)
    (runs : ∀ sr, s.sampleRate = some sr → Does s i (run sr)) : Does s i (s.withRate run) := by
  cases hs : s.sampleRate with
  | some sr =>
    rw [State.withRate_some hs]
    exact runs sr hs
  | none =>
    rw [State.withRate_none hs]
    exact .noRate i needs hs

/-- What an instruction answers is one of the things it can do. -/
theorem exec_does {i : Instr} {s t : State} (h : exec i s = .next t) : Does s i t := by
  cases i with
  | setSampleRate rate =>
    by_cases legal : rateLegal rate = true
    · cases (exec_setSampleRate_legal legal s).symm.trans h
      exact .setSampleRate rate legal
    · cases (exec_setSampleRate_illegal legal s).symm.trans h
      exact .srInvalid rate legal
  | handleEvents events =>
    cases h
    exact handleEvents_does events s
  | render ns nc => exact render_does h
  | noteOff note velocity =>
    by_cases held : s.currentNote = some note
    · cases (exec_noteOff_held held velocity).symm.trans h
      exact .noteOff note velocity held
    · cases (exec_noteOff_other held velocity).symm.trans h
      exact .noteOffKeeps note velocity held
  | noteOn note velocity =>
    rcases Nat.lt_or_ge 127 note.toNat with above | legal
    · cases (exec_noteOn_illegal above velocity s).symm.trans h
      exact .noteRange note velocity above
    · cases (exec_noteOn_legal legal velocity s).symm.trans h
      exact .noteOn note velocity legal
  | ignored status data1 data2 =>
    cases h
    exact .ignored status data1 data2
  | pitchToFreq pitch =>
    cases h
    exact .pitchToFreq pitch
  | changeFrequency freq =>
    cases h
    exact .changeFrequency freq
  | nextSample =>
    cases h
    refine withRate_does (by simp [NeedsRate]) fun sr rate => ?_
    rw [giveSample, nextSample_state]
    exact .nextSample sr rate
  | nextSampleSine =>
    cases h
    exact withRate_does (by simp [NeedsRate]) Does.nextSampleSine
  | nextSampleSaw =>
    cases h
    exact withRate_does (by simp [NeedsRate]) Does.nextSampleSaw
  | harmonicCount =>
    cases h
    exact withRate_does (by simp [NeedsRate]) Does.harmonicCount
  | phaseAdvance =>
    cases h
    exact withRate_does (by simp [NeedsRate]) Does.phaseAdvance

/-- Settles O7: each arm of the dispatch is a next state by its own definition. -/
theorem everyInstructionAnswersANextState : Obligations.EveryInstructionAnswersANextState := by
  unfold Obligations.EveryInstructionAnswersANextState
  intro i s
  cases i <;> exact ⟨_, rfl⟩

/-! ### What every instruction keeps -/

/-- Settles O50: each way an instruction can end, by the fields that way writes. -/
theorem eachRegisterHasItsWriters : Obligations.EachRegisterHasItsWriters := by
  unfold Obligations.EachRegisterHasItsWriters
  intro i s t h
  cases exec_does h with
  | noRate _ needs => rcases needs with rfl | rfl | rfl | rfl | rfl <;> simp
  | renderSounding => simp [renderSounding_frame]
  | noteOn => simp [changeFrequency]
  | _ => simp

/-- Settles O51: RENDER's own reading law outside its block; every other way an instruction can end keeps OUT whole. -/
theorem slotsOutsideTheBlockAreKept : Obligations.SlotsOutsideTheBlockAreKept := by
  unfold Obligations.SlotsOutsideTheBlockAreKept
  intro i s t h c n outside
  cases exec_does h with
  | renderIdle ns nc => rw [renderIdle_read, if_neg (outside ns nc rfl)]
  | renderSounding ns nc => rw [renderSounding_read, if_neg (outside ns nc rfl)]
  | noteOn => rfl
  | _ => simp

/-- Settles O53: only a refusal sets the mark, and but for a batch a refusal is `State.raise` alone. -/
theorem refusalWritesOnlyTheMark : Obligations.RefusalWritesOnlyTheMark := by
  unfold Obligations.RefusalWritesOnlyTheMark
  intro i s t h clear marked notBatch
  cases exec_does h with
  | srInvalid | srUnset | noteRange | noRate => exact ⟨_, rfl⟩
  | handleEvents | handleEventsStops => exact absurd rfl (notBatch _)
  | renderSounding => simp [renderSounding_frame, clear] at marked
  | noteOn => simp [changeFrequency, clear] at marked
  | _ => simp [clear] at marked

/-- Settles O54: every way an instruction can end sets the mark or keeps it. -/
theorem refusedMarkIsSticky : Obligations.RefusedMarkIsSticky := by
  unfold Obligations.RefusedMarkIsSticky
  intro i s t h marked
  cases exec_does h with
  | renderSounding => simpa [renderSounding_frame] using marked
  | noteOn => exact marked
  | srInvalid | handleEventsStops | srUnset | noteRange | noRate => rfl
  | _ => simpa using marked

theorem exec_keeps_wf {i : Instr} {s t : State} (wf : s.out.wf) (h : exec i s = .next t) : t.out.wf := by
  cases exec_does h with
  | renderIdle ns nc => exact renderIdle_wf wf nc ns
  | renderSounding ns nc _ sr => exact renderSounding_wf wf sr nc ns
  | noteOn => exact wf
  | _ => simpa using wf

/-- Settles O55: a step waits, refuses an unknown tag, or runs an instruction, and each keeps the form. -/
theorem stepKeepsOutCanonical : Obligations.StepKeepsOutCanonical := by
  unfold Obligations.StepKeepsOutCanonical
  intro s t wf h
  obtain ⟨-, ⟨-, rfl⟩ | ⟨tag, operands, rest, -, rfl⟩ | ⟨p, rest, i, -, -, run⟩⟩ := step_cases h
  · exact wf
  · exact wf
  · exact exec_keeps_wf (s := s.setInbox rest) wf run

end Sys2Proof.Machine

/-!
PROOF. The commands and events one by one: SET_SAMPLE_RATE and HANDLE_EVENTS (44_host_commands.md), NOTE_ON and NOTE_OFF
(42_note_state.md).
-/

namespace Sys2Proof.Machine

/-! ### SET_SAMPLE_RATE -/

theorem rateLegal_iff (rate : B32) : rateLegal rate = true ↔ rate.isFinite = true ∧ rate.positive = true := by
  rw [rateLegal, Bool.and_eq_true]

/-- Settles O12: a finite positive rate is a legal one. -/
theorem setSampleRateStoresTheWidenedRate : Obligations.SetSampleRateStoresTheWidenedRate := by
  unfold Obligations.SetSampleRateStoresTheWidenedRate
  intro rate s finite positive
  exact exec_setSampleRate_legal ((rateLegal_iff rate).2 ⟨finite, positive⟩) s

/-- Settles O13: a rate that is not finite and positive is not legal. -/
theorem setSampleRateRefusesAnyOtherRate : Obligations.SetSampleRateRefusesAnyOtherRate := by
  unfold Obligations.SetSampleRateRefusesAnyOtherRate
  intro rate s illegal
  exact exec_setSampleRate_illegal (mt (rateLegal_iff rate).1 illegal) s

/-- Settles O14: widening is one rounding of a value that binary64 has. -/
theorem wideningIsExact : Obligations.WideningIsExact := by
  unfold Obligations.WideningIsExact
  intro r finite
  obtain ⟨wide, sign, units, -⟩ := toB64_finite finite
  exact ⟨wide, sign, units⟩

/-! ### NOTE_ON, NOTE_OFF and CHANGE_FREQUENCY -/

/-- Settles O27: a note up to 127 is legal. -/
theorem noteOnStartsTheNote : Obligations.NoteOnStartsTheNote := by
  unfold Obligations.NoteOnStartsTheNote
  intro note velocity s legal
  exact exec_noteOn_legal legal velocity s

/-- Settles O28: a note above 127 is not. -/
theorem noteOnAbove127IsRefused : Obligations.NoteOnAbove127IsRefused := by
  unfold Obligations.NoteOnAbove127IsRefused
  intro note velocity s above
  exact exec_noteOn_illegal above velocity s

/-- Settles O29: by whether the note is the one held. -/
theorem noteOffEndsOnlyTheSoundingNote : Obligations.NoteOffEndsOnlyTheSoundingNote := by
  unfold Obligations.NoteOffEndsOnlyTheSoundingNote
  intro note velocity s
  exact ⟨fun held => exec_noteOff_held held velocity, fun other => exec_noteOff_other other velocity⟩

/-- Settles O37: the arm is CHANGE_FREQUENCY's own register write. -/
theorem changeFrequencyWritesTheFrequency : Obligations.ChangeFrequencyWritesTheFrequency := by
  unfold Obligations.ChangeFrequencyWritesTheFrequency
  exact fun _ _ => rfl

/-! ### HANDLE_EVENTS -/

/-- Settles O16: no message of the batch is refused. -/
theorem handleEventsAppliesTheBatchInOrder : Obligations.HandleEventsAppliesTheBatchInOrder := by
  unfold Obligations.HandleEventsAppliesTheBatchInOrder
  intro events s legal
  exact exec_handleEvents_legal legal s

/-- A NOTE_ON above 127 ends the batch it begins (R128, R161). -/
theorem applyEvents_illegal_cons {e : Event} (on : e.status = 0x90#8) (above : 127 < e.data1.toNat) (index : Nat)
    (rest : List Event) (s : State) : applyEvents index (e :: rest) s = s.raise (.noteRange index e) := by
  rw [applyEvents, applyEvent_illegal index e s on above]

/-- Settles O17: the messages before the refused one are folded, and the refusal is all that follows. -/
theorem handleEventsStopsAtTheRefusedEvent : Obligations.HandleEventsStopsAtTheRefusedEvent := by
  unfold Obligations.HandleEventsStopsAtTheRefusedEvent
  intro before after e s legal on above
  show Host.Outcome.next (applyEvents 0 (before ++ e :: after) s) = _
  rw [applyEvents_append before (e :: after) 0 s legal, applyEvents_illegal_cons on above, Nat.zero_add]
  rfl

/-- R123: messages of which none is a NOTE_ON or NOTE_OFF change nothing. -/
theorem foldl_eventEffect_of_no_notes {events : List Event} {s : State}
    (noNote : ∀ e ∈ events, e.status ≠ 0x80#8 ∧ e.status ≠ 0x90#8) : events.foldl eventEffect s = s := by
  induction events with
  | nil => rfl
  | cons e es ih =>
    obtain ⟨⟨notOff, notOn⟩, rest⟩ := List.forall_mem_cons.1 noNote
    rw [List.foldl_cons, eventEffect_of_no_note notOn fun off => absurd off notOff, ih rest]

/-- Settles O18: a batch is its messages' effects, with at most the mark after them; without a NOTE_ON it is legal. -/
theorem handleEventsFrame : Obligations.HandleEventsFrame := by
  unfold Obligations.HandleEventsFrame
  intro events s
  refine ⟨_, rfl, ?_⟩
  rcases applyEvents_cases events 0 s with ⟨applied, -⟩ | ⟨first, e, rest, split, -, on, -, stopped⟩
  · rw [applied]
    refine ⟨?_, ?_, ?_, ?_, ?_, foldl_eventEffect_of_no_notes⟩ <;> simp
  · rw [stopped]
    have notNoteless : ¬ ∀ e ∈ events, e.status ≠ 0x80#8 ∧ e.status ≠ 0x90#8 := fun noNote =>
      (noNote e (by simp [split])).2 on
    refine ⟨?_, ?_, ?_, ?_, ?_, fun noNote => absurd noNote notNoteless⟩ <;> simp

/-! ### The velocity -/

/-- R124: a message's effect reads its status and its note alone. -/
theorem eventEffect_velocity {e e' : Event} (status : e.status = e'.status) (data1 : e.data1 = e'.data1) (s : State) :
    eventEffect s e = eventEffect s e' := by
  unfold eventEffect
  rw [status, data1]

/-- R124: two batches that agree but for `data2` leave states that agree but for the record. -/
theorem applyEvents_velocity (events others : List Event) (index : Nat) (s : State)
    (same : events.map (fun e => (e.status, e.data1)) = others.map (fun e => (e.status, e.data1))) :
    { applyEvents index events s with refusal := none } = { applyEvents index others s with refusal := none } := by
  induction events generalizing others index s with
  | nil =>
    cases others with
    | nil => rfl
    | cons e' es' => cases same
  | cons e es ih =>
    cases others with
    | nil => cases same
    | cons e' es' =>
      simp only [List.map_cons, List.cons.injEq, Prod.mk.injEq] at same
      obtain ⟨⟨status, data1⟩, rest⟩ := same
      by_cases legal : e.status = 0x90#8 → e.data1.toNat ≤ 127
      · have legal' : e'.status = 0x90#8 → e'.data1.toNat ≤ 127 := by rwa [← status, ← data1]
        simp only [applyEvents, applyEvent_legal index e s legal, applyEvent_legal index e' s legal',
          eventEffect_velocity status data1 s]
        exact ih es' (index + 1) (eventEffect s e') rest
      · obtain ⟨on, above⟩ := Classical.not_imp.1 legal
        rw [applyEvents_illegal_cons on (Nat.lt_of_not_le above),
          applyEvents_illegal_cons (status ▸ on) (data1 ▸ Nat.lt_of_not_le above)]
        rfl

/-- Settles O31: batches message by message; a legal NOTE_ON's meaning does not name its velocity. -/
theorem velocityHasNoEffect : Obligations.VelocityHasNoEffect := by
  unfold Obligations.VelocityHasNoEffect
  refine ⟨fun events others s same => ⟨_, _, rfl, rfl, applyEvents_velocity events others 0 s same⟩, ?_⟩
  intro note velocity s legal
  have zero := exec_noteOn_legal legal 0#8 s
  exact ⟨zero.trans (exec_noteOn_legal legal velocity s).symm, _, zero, rfl⟩

end Sys2Proof.Machine

/-!
PROOF. RENDER (43_renderer.md): what an Idle block and a Sounding block leave, and how two blocks compare.
-/

namespace Sys2Proof.Machine

/-- R147: where RENDER is not refused for want of a rate, the core is Idle or Sounding with a rate. -/
theorem idle_or_sounding {s : State} (ready : s.currentNote = none ∨ s.sampleRate ≠ none) :
    s.currentNote = none ∨ ∃ note sr, s.currentNote = some note ∧ s.sampleRate = some sr := by
  rcases render_four_cases 1 s with idle | sounding | empty | ⟨note, sounding, unset, -⟩
  · exact .inl idle
  · exact .inr sounding
  · cases empty
  · simp [sounding, unset] at ready

/-- Settles O19: an Idle block writes slots alone, and each slot as its block says. -/
theorem idleRenderWritesZeros : Obligations.IdleRenderWritesZeros := by
  unfold Obligations.IdleRenderWritesZeros
  intro numSamples numChannels s idle
  exact ⟨_, exec_render_idle idle numSamples numChannels, renderIdle_eq numChannels s numSamples,
    renderIdle_read numChannels s numSamples⟩

/-- Settles O20: by the phase, the duration and the slots of a Sounding block. -/
theorem soundingRenderWritesTheSamples : Obligations.SoundingRenderWritesTheSamples := by
  unfold Obligations.SoundingRenderWritesTheSamples
  intro numSamples numChannels s note sr sounding rate
  refine ⟨_, exec_render_sounding sounding rate numSamples numChannels, ?_,
    renderSounding_phase sr numChannels s numSamples, renderSounding_duration sr numChannels s numSamples,
    renderSounding_read sr numChannels s numSamples⟩
  rw [renderSounding_phase, renderSounding_duration]
  exact renderSounding_eq sr numChannels s numSamples

/-- Settles O21: the last of RENDER's four cases. -/
theorem soundingRenderRefusedWithoutRate : Obligations.SoundingRenderRefusedWithoutRate := by
  unfold Obligations.SoundingRenderRefusedWithoutRate
  intro numSamples numChannels s note sounding unset nonempty
  exact exec_render_unset sounding unset nonempty numChannels

/-- A Sounding block to no channels writes no slot. -/
theorem renderSounding_out_no_channels (sr : B64) (s : State) (n : Nat) : (renderSounding sr 0 s n).out = s.out := by
  induction n with
  | zero => rfl
  | succ n ih =>
    obtain ⟨-, -, -, -, -, -, -, out, -, -⟩ := renderSample_fields sr 0 n (renderSounding sr 0 s n)
    exact out.trans ih

/-- Settles O22: an empty block is the state itself; with no channels a Sounding block keeps OUT. -/
theorem emptyBlocksAndZeroChannels : Obligations.EmptyBlocksAndZeroChannels := by
  unfold Obligations.EmptyBlocksAndZeroChannels
  refine ⟨exec_render_empty, fun numSamples s note sr sounding rate => ?_⟩
  rw [exec_render_sounding sounding rate, renderSounding_eq, renderSounding_out_no_channels]

/-- Settles O23: neither the value of a sample nor the phase names a channel. -/
theorem channelsAreBitIdentical : Obligations.ChannelsAreBitIdentical := by
  unfold Obligations.ChannelsAreBitIdentical
  intro numSamples numChannels otherChannels s ready
  rcases idle_or_sounding ready with idle | ⟨note, sr, sounding, rate⟩
  · refine ⟨_, _, exec_render_idle idle _ _, exec_render_idle idle _ _, ?_, fun n hn => ⟨B32.zero, fun c hc => ?_⟩⟩
    · rw [renderIdle_phase, renderIdle_phase]
    · rw [renderIdle_read, if_pos ⟨hc, hn⟩]
  · refine ⟨_, _, exec_render_sounding sounding rate _ _, exec_render_sounding sounding rate _ _, ?_,
      fun n hn => ⟨(nextSample sr ((phaseAdvance sr)^[n] s)).1.toB32, fun c hc => ?_⟩⟩
    · rw [renderSounding_phase, renderSounding_phase]
    · rw [renderSounding_read, if_pos ⟨hc, hn⟩]

/-- The phase after some advances depends on the phase and the frequency alone. -/
theorem phaseAdvance_iterate_congr {s u : State} (sr : B64) (hp : s.phase = u.phase) (hf : s.frequency = u.frequency)
    (n : Nat) : ((phaseAdvance sr)^[n] s).phase = ((phaseAdvance sr)^[n] u).phase := by
  induction n with
  | zero => exact hp
  | succ n ih =>
    rw [Function.iterate_succ_apply', Function.iterate_succ_apply']
    exact phaseAdvance_congr sr ih (by rw [phaseAdvance_iterate_frequency, phaseAdvance_iterate_frequency, hf])

/-- Sample `n` of a block depends on the phase and the frequency alone. -/
theorem nextSample_iterate_congr {s u : State} (sr : B64) (hp : s.phase = u.phase) (hf : s.frequency = u.frequency)
    (n : Nat) :
    (nextSample sr ((phaseAdvance sr)^[n] s)).1 = (nextSample sr ((phaseAdvance sr)^[n] u)).1 :=
  nextSample_congr sr (phaseAdvance_iterate_congr sr hp hf n)
    (by rw [phaseAdvance_iterate_frequency, phaseAdvance_iterate_frequency, hf])

/-- Settles O24: the second block starts at the state whose phase the first has advanced `a` times, and iterates add. -/
theorem blocksContinueThePhase : Obligations.BlocksContinueThePhase := by
  unfold Obligations.BlocksContinueThePhase
  intro a b nc s note sr sounding rate
  obtain ⟨frequency, currentNote, sampleRate, -⟩ := renderSounding_frame sr nc s a
  obtain ⟨frequency', currentNote', -⟩ := renderSounding_frame sr nc (renderSounding sr nc s a) b
  obtain ⟨longFrequency, longNote, -⟩ := renderSounding_frame sr nc s (a + b)
  have hp : (renderSounding sr nc s a).phase = ((phaseAdvance sr)^[a] s).phase := renderSounding_phase sr nc s a
  have hf : (renderSounding sr nc s a).frequency = ((phaseAdvance sr)^[a] s).frequency :=
    frequency.trans (phaseAdvance_iterate_frequency sr s a).symm
  refine ⟨_, _, _, exec_render_sounding sounding rate a nc,
    exec_render_sounding (currentNote.trans sounding) (sampleRate.trans rate) b nc,
    exec_render_sounding sounding rate (a + b) nc, ?phase, ?duration,
    (frequency'.trans frequency).trans longFrequency.symm, (currentNote'.trans currentNote).trans longNote.symm,
    fun c n hc hn => ?slot⟩
  case phase =>
    rw [renderSounding_phase, renderSounding_phase, phaseAdvance_iterate_congr sr hp hf, Nat.add_comm,
      Function.iterate_add_apply]
  case duration =>
    rw [renderSounding_duration, renderSounding_duration, renderSounding_duration, Nat.add_comm,
      Function.iterate_add_apply]
  case slot =>
    rw [renderSounding_read, if_pos ⟨hc, hn⟩, renderSounding_read, if_pos ⟨hc, by omega⟩,
      nextSample_iterate_congr sr hp hf, Nat.add_comm, Function.iterate_add_apply]

/-! ### The duration -/

/-- R25, R179: adding 1.0 counts up to `2^53` and stays there. -/
theorem duration_add_one {k : Nat} (h : k ≤ 2 ^ 53) :
    B64.add (B64.ofInt (k : Int)) B64.oneValue = B64.ofInt ((min (k + 1) (2 ^ 53) : Nat) : Int) := by
  rcases Nat.lt_or_eq_of_le h with below | rfl
  · rw [duration_succ below, Nat.min_eq_left below]
  · rw [duration_saturates, Nat.min_eq_right (Nat.le_succ _)]

theorem duration_add_ones {k : Nat} (h : k ≤ 2 ^ 53) (n : Nat) :
    (fun d => B64.add d B64.oneValue)^[n] (B64.ofInt (k : Int)) =
      B64.ofInt ((min (k + n) (2 ^ 53) : Nat) : Int) := by
  induction n with
  | zero => rw [Nat.add_zero, Nat.min_eq_left h]; rfl
  | succ n ih =>
    rw [Function.iterate_succ_apply', ih, duration_add_one (Nat.min_le_right _ _)]
    congr 2
    omega

/-- Settles O26: 1.0 is added to the duration once per sample. -/
theorem durationCountsSamplesAndSaturates : Obligations.DurationCountsSamplesAndSaturates := by
  unfold Obligations.DurationCountsSamplesAndSaturates
  intro k numSamples numChannels s note sr sounding rate bound duration
  refine ⟨_, exec_render_sounding sounding rate numSamples numChannels, ?_⟩
  rw [renderSounding_duration, duration, duration_add_ones bound]

/-! ### RENDER and the buffer -/

/-- Settles O52: a block's registers come from the phase, the duration and the frequency, and its slots from its
samples; an empty or refused block keeps both buffers. -/
theorem renderDoesNotReadTheBuffer : Obligations.RenderDoesNotReadTheBuffer := by
  unfold Obligations.RenderDoesNotReadTheBuffer
  intro ns nc s other
  rcases render_four_cases ns s with idle | ⟨note, sr, sounding, rate⟩ | rfl | ⟨note, sounding, unset, nonempty⟩
  · refine ⟨_, _, exec_render_idle idle ns nc, exec_render_idle (s := s.setOut other) idle ns nc, ?_,
      fun _ c n hc hn => ?_⟩
    · rw [renderIdle_eq, renderIdle_eq nc (s.setOut other)]
      rfl
    · rw [renderIdle_read, renderIdle_read, if_pos ⟨hc, hn⟩, if_pos ⟨hc, hn⟩]
  · refine ⟨_, _, exec_render_sounding sounding rate ns nc,
      exec_render_sounding (s := s.setOut other) sounding rate ns nc, ?_, fun _ c n hc hn => ?_⟩
    · rw [renderSounding_eq, renderSounding_eq sr nc (s.setOut other),
        phaseAdvance_iterate_congr (s := s.setOut other) (u := s) sr rfl rfl]
      rfl
    · rw [renderSounding_read, renderSounding_read, if_pos ⟨hc, hn⟩, if_pos ⟨hc, hn⟩,
        nextSample_iterate_congr (s := s.setOut other) (u := s) sr rfl rfl]
  · exact ⟨_, _, exec_render_empty nc s, exec_render_empty nc (s.setOut other), rfl,
      fun _ _ n _ hn => absurd hn (Nat.not_lt_zero n)⟩
  · exact ⟨_, _, exec_render_unset sounding unset nonempty nc,
      exec_render_unset (s := s.setOut other) sounding unset nonempty nc, rfl,
      fun ready => by simp [sounding, unset] at ready⟩

end Sys2Proof.Machine

/-!
PROOF. 0.0 as an operand of binary64 arithmetic (00_scope.md section 4).
-/

namespace Sys2Proof

theorem B64.zero_spec : B64.zero.isFinite = true ∧ B64.zero.neg = false ∧ B64.zero.units = 0 := by decide

theorem B64.ofRatio_zero (den : Nat) : B64.ofRatio false 0 den = B64.zero := by
  rw [B64.ofRatio, B64.roundMag_zero]
  decide

/-- 0.0 times a finite value with its sign clear is 0.0. -/
theorem B64.zero_mul {b : B64} (finite : b.isFinite = true) (sign : b.neg = false) :
    B64.mul B64.zero b = B64.zero := by
  obtain ⟨zeroFinite, zeroSign, zeroUnits⟩ := B64.zero_spec
  rw [B64.mul_finite zeroFinite finite, zeroSign, sign, zeroUnits, Nat.zero_mul, Bool.bne_false,
    B64.ofRatio_zero]

/-- 0.0 divided by a finite positive value is 0.0. -/
theorem B64.zero_div {b : B64} (finite : b.isFinite = true) (sign : b.neg = false) (positive : 0 < b.mag) :
    B64.div B64.zero b = B64.zero := by
  obtain ⟨zeroFinite, zeroSign, zeroUnits⟩ := B64.zero_spec
  rw [B64.div_finite zeroFinite finite positive, zeroSign, sign, zeroUnits, Nat.zero_mul, Bool.bne_false,
    B64.ofRatio_zero]

end Sys2Proof

/-!
PROOF. The pitch converter (40_pitch_converter.md) and the oscillator's operations (41_oscillator.md).
-/

namespace Sys2Proof.Machine

/-! ### The pitch converter -/

/-- Settles O34: the value handed back is the one NOTE_ON writes. -/
theorem pitchToFreqHandsBackTheFrequency : Obligations.PitchToFreqHandsBackTheFrequency := by
  unfold Obligations.PitchToFreqHandsBackTheFrequency
  intro pitch s
  exact ⟨_, rfl, rfl, fun legal => if_pos legal⟩

/-- R83: twelve semitones are one octave, exactly: the quotient of `69 + 12k` is `k`, and 440.0 times `2^k` is one
rounding of its exact value. -/
theorem octave_exact : ∀ k : Int, -5 ≤ k → k ≤ 4 →
    (BitVec.ofInt 8 (69 + 12 * k)).toNat ≤ 127 ∧ pitchQuotient (BitVec.ofInt 8 (69 + 12 * k)) = B64.ofInt k ∧
      B64.mul (B64.pow2 k) B64.a440 = B64.ofRatio false (440 * 2 ^ (1074 + k).toNat) 1 := by
  intro k low high
  interval_cases k <;> decide +kernel

/-- R83, by EXP2_INT: the pitches a whole number of octaves from 69 give `440.0 × 2^k`. -/
theorem pitchToFreq_octave {k : Int} (low : -5 ≤ k) (high : k ≤ 4) :
    pitchToFreq (BitVec.ofInt 8 (69 + 12 * k)) = B64.ofRatio false (440 * 2 ^ (1074 + k).toNat) 1 := by
  obtain ⟨legal, quotient, product⟩ := octave_exact k low high
  have power : Config.exp2 (B64.ofInt k) = B64.pow2 k := (Config.exp2Fn Exp2Fn.witness).int k low high
  rw [pitchToFreq, if_pos legal, quotient, power, product]

/-- Settles O35: the octaves, and the literal patterns of three of them. -/
theorem pitchVectorsAreExact : Obligations.PitchVectorsAreExact := by
  unfold Obligations.PitchVectorsAreExact
  refine ⟨fun k low high s => ?_, ?_, ?_, ?_⟩
  · rw [← pitchToFreq_octave low high]
    rfl
  · refine (pitchToFreq_octave (k := -1) (by decide) (by decide)).trans ?_
    decide +kernel
  · refine (pitchToFreq_octave (k := 0) (by decide) (by decide)).trans ?_
    decide +kernel
  · refine (pitchToFreq_octave (k := 1) (by decide) (by decide)).trans ?_
    decide +kernel

/-- Settles O36: the converter's bounds put it above 0.0 and below infinity. -/
theorem pitchToFreqIsPositiveFiniteMonotone : Obligations.PitchToFreqIsPositiveFiniteMonotone := by
  unfold Obligations.PitchToFreqIsPositiveFiniteMonotone
  intro a b order legal
  obtain ⟨nonneg, positive, low, -⟩ := pitchToFreq_bounds (order.trans legal)
  have lowPos : 0 < freqLowMag := by decide
  exact ⟨(B64.lt_zero_iff _).2 ⟨B64.not_nan_of_finite nonneg.1, positive, lowPos.trans_le low⟩, nonneg.1,
    pitchToFreq_mono order legal⟩

/-! ### The phase -/

/-- Settles O38: with a rate set the operation runs with it. -/
theorem phaseAdvanceWritesThePhase : Obligations.PhaseAdvanceWritesThePhase := by
  unfold Obligations.PhaseAdvanceWritesThePhase
  intro s sr rate
  exact exec_phaseAdvance rate

/-- Settles O39: `fract` is the subtraction on its domain, where its range and its exact value are known. -/
theorem fractIsExactAndBelowOne : Obligations.FractIsExactAndBelowOne := by
  unfold Obligations.FractIsExactAndBelowOne
  intro x finite nonneg
  obtain ⟨⟨fractFinite, fractNonneg, fractBelow⟩, -, units⟩ := fract_spec ⟨finite, nonneg⟩
  exact ⟨if_pos (Bool.and_eq_true_iff.2 ⟨finite, nonneg⟩), fractFinite, fractNonneg, fractBelow, units⟩

/-! ### NEXT_SAMPLE and its variants -/

/-- Settles O40: by the variant the core contains. -/
theorem nextSampleRunsTheVariant : Obligations.NextSampleRunsTheVariant := by
  unfold Obligations.NextSampleRunsTheVariant
  intro s sr rate
  refine ⟨_, exec_nextSample rate, ?_, by rw [giveSample, nextSample_state]; rfl⟩
  unfold nextSample
  cases Config.oscKind with
  | sine => exact exec_nextSampleSine rate
  | saw => exact exec_nextSampleSaw rate

/-- Settles O41: with a rate set the operation runs with it. -/
theorem nextSampleSineHandsBackTheSine : Obligations.NextSampleSineHandsBackTheSine := by
  unfold Obligations.NextSampleSineHandsBackTheSine
  intro s sr rate
  exact exec_nextSampleSine rate

/-- Settles O42: the sample is the harmonic sum, which is a left fold over the harmonic numbers. -/
theorem nextSampleSawHandsBackTheSum : Obligations.NextSampleSawHandsBackTheSum := by
  unfold Obligations.NextSampleSawHandsBackTheSum
  intro s sr rate
  rw [exec_nextSampleSaw rate, nextSampleSaw, sawSample, sawSum_eq_foldl]
  rfl

/-- R98: the guard fails at and below the threshold. -/
theorem sawGuard_of_le {f : B64} (h : B64.le f Config.sawEpsHz = true) : ¬ sawGuard f = true := by
  obtain ⟨-, -, order⟩ := (B64.le_iff f Config.sawEpsHz).1 h
  simp [sawGuard, B64.lt, order]

/-- Settles O43: with the guard failed the sum is left out; every instruction answers as O7 says. -/
theorem guardedSawtoothIsSilent : Obligations.GuardedSawtoothIsSilent := by
  unfold Obligations.GuardedSawtoothIsSilent
  refine ⟨fun s sr rate low => ?_, everyInstructionAnswersANextState⟩
  rw [exec_nextSampleSaw rate, nextSampleSaw, sawSample, if_neg (sawGuard_of_le low)]
  rfl

/-- Settles O44: the sine's sample and next phase read the phase and the frequency alone. -/
theorem sineStateIsPhaseAndFrequency : Obligations.SineStateIsPhaseAndFrequency := by
  unfold Obligations.SineStateIsPhaseAndFrequency
  refine ⟨fun s u sr rate rate' hp hf => ?_, fun s sr rate => ?_⟩
  · have sample : sineSample s = sineSample u := by rw [sineSample, sineSample, hp]
    exact ⟨_, _, exec_nextSampleSine rate, exec_nextSampleSine rate', congrArg Returned.float sample,
      phaseAdvance_congr sr hp hf, hf⟩
  · exact ⟨_, _, exec_nextSampleSine rate, exec_nextSampleSaw rate, rfl, rfl⟩

/-- Settles O48: `TWO_PI × phase` is finite, and SIN_BOUND does the rest. -/
theorem sineSampleIsAtMostOne : Obligations.SineSampleIsAtMostOne := by
  unfold Obligations.SineSampleIsAtMostOne
  intro s sr rate legal
  obtain ⟨argument, -⟩ := twoPi_mul_phase legal
  obtain ⟨low, high⟩ := (Config.sinFn SinFn.witness).bound _ argument
  exact ⟨_, _, exec_nextSampleSine rate, rfl, (sineSample_bounded legal).1, low, high⟩

/-! ### HARMONIC_COUNT -/

/-- Settles O45: above the guard `to_int` reads the floor of a finite quotient that is not negative. -/
theorem harmonicCountHandsBackTheFloor : Obligations.HarmonicCountHandsBackTheFloor := by
  unfold Obligations.HarmonicCountHandsBackTheFloor
  intro s sr rate
  refine ⟨_, exec_harmonicCount rate, ?_⟩
  rintro r legal rfl finite above
  obtain ⟨nonneg, sign, -⟩ := toB64_exact legal
  obtain ⟨count, quotient, -⟩ := harmonicCount_eq nonneg sign finite above
  rw [count]
  exact ⟨toInt_floor quotient, Int.natCast_nonneg _⟩

/-- Settles O46: the quotient falls as the frequency rises, and so does its integer part. -/
theorem harmonicCountDoesNotRise : Obligations.HarmonicCountDoesNotRise := by
  unfold Obligations.HarmonicCountDoesNotRise
  intro r f g legal finiteF finiteG above order
  obtain ⟨nonneg, sign, -⟩ := toB64_exact legal
  exact harmonicCount_antitone nonneg sign finiteF finiteG above order

/-- Settles O47: each of the five takes the rate from the state. -/
theorem internalOperationsNeedARate : Obligations.InternalOperationsNeedARate := by
  unfold Obligations.InternalOperationsNeedARate
  intro s unset i hi
  simp only [List.mem_cons, List.not_mem_nil, or_false] at hi
  rcases hi with rfl | rfl | rfl | rfl | rfl
  · exact exec_nextSample_unset unset
  · exact exec_nextSampleSine_unset unset
  · exact exec_nextSampleSaw_unset unset
  · exact exec_harmonicCount_unset unset
  · exact exec_phaseAdvance_unset unset

/-! ### The first sample -/

/-- By SIN_ZERO, every harmonic up to `2^128` is 0.0 at phase 0.0. -/
theorem sawTerm_zero {i : Nat} (positive : 0 < i) (bound : i ≤ 2 ^ 128) : sawTerm B64.zero i = B64.zero := by
  obtain ⟨⟨finite, -⟩, -⟩ := B64.ofInt_le (e := 128) (by decide) bound
  obtain ⟨sign, -⟩ := B64.ofInt_nat i
  have mag : 0 < (B64.ofInt (i : Int)).mag := lt_of_lt_of_le (by decide) (B64.one_le_ofInt positive)
  obtain ⟨twoSign, twoFinite, twoMag, -⟩ := two_spec
  rw [sawTerm, B64.zero_mul finite sign, sin_zero, B64.zero_div finite sign mag, B64.zero_div twoFinite twoSign twoMag]

theorem sawSum_zero {n : Nat} (bound : n ≤ 2 ^ 128) : sawSum B64.zero n = B64.zero := by
  induction n with
  | zero => rfl
  | succ n ih =>
    rw [sawSum, ih (by omega), sawTerm_zero (Nat.succ_pos n) bound]
    decide +kernel

/-- R96: for a legal rate and a finite frequency above the guard the harmonic count is at most `2^128`. -/
theorem harmonicCount_le {r : B32} {f : B64} (legal : rateLegal r = true) (finite : f.isFinite = true)
    (above : sawGuard f = true) : (harmonicCount r.toB64 f).toNat ≤ 2 ^ 128 := by
  obtain ⟨nonneg, sign, -, rateMag, -⟩ := toB64_exact legal
  obtain ⟨count, -, quotient⟩ := harmonicCount_eq nonneg sign finite above
  have units : (B64.div (B64.div r.toB64 B64.two) f).units ≤ 2 ^ 128 * B64.one := by
    rw [← B64.magUnits_powMag]
    exact magUnits_le_iff.2 (quotient.trans rateMag)
  rw [count, Int.toNat_natCast]
  exact Nat.div_le_of_le_mul (by rwa [Nat.mul_comm])

/-- R192: at phase 0.0 the sawtooth is 0.0, guarded or not. -/
theorem sawSample_zero {s : State} {r : B32} (legal : rateLegal r = true) (finite : s.frequency.isFinite = true)
    (phase : s.phase = B64.zero) : sawSample r.toB64 s = B64.zero := by
  unfold sawSample
  split
  · rename_i above
    have product : B64.mul Config.twoPi B64.zero = B64.zero := by decide +kernel
    have count := harmonicCount_le legal finite above
    rw [phase, product, sawSum_zero (by omega)]
  · rfl

theorem nextSample_zero {s : State} {r : B32} (legal : rateLegal r = true) (finite : s.frequency.isFinite = true)
    (phase : s.phase = B64.zero) : (nextSample r.toB64 s).1 = B64.zero := by
  unfold nextSample
  cases Config.oscKind with
  | sine => exact sineSample_zero phase
  | saw => exact sawSample_zero legal finite phase

/-- Settles O49: the sine by SIN_ZERO, the sawtooth because each of its harmonics is 0.0. -/
theorem firstSampleIsZero : Obligations.FirstSampleIsZero := by
  unfold Obligations.FirstSampleIsZero
  intro s r legal rate phase finite
  exact ⟨⟨_, exec_nextSampleSine rate, congrArg Returned.float (sineSample_zero phase)⟩,
    ⟨_, exec_nextSampleSaw rate, congrArg Returned.float (sawSample_zero legal finite phase)⟩,
    ⟨_, exec_nextSample rate, congrArg Returned.float (nextSample_zero legal finite phase)⟩⟩

end Sys2Proof.Machine

/-!
PROOF. The invariant of reachable states (41_oscillator.md section 4): every command keeps it, so every step and every
run does, and a block rendered under it writes finite values.
-/

namespace Sys2Proof.Machine

/-- R21: the frequency of a state that meets the invariant is one the phase accumulator can be driven with. -/
theorem Inv.freqBounded {s : State} (inv : Inv s) : freqBounded s.frequency := by
  rcases inv.frequency with zero | ⟨n, legal, pitch⟩
  · rw [zero]
    exact freqBounded_zero
  · rw [pitch]
    exact freqBounded_pitch legal

/-- The invariant does not speak of the mark, its record or the returned value, and of the inbox only that commands are
pending. -/
theorem Inv.setInbox {s : State} (inv : Inv s) {q : List Packet} (commands : ∀ p ∈ q, p.isCommand = true) :
    Inv (s.setInbox q) :=
  ⟨inv.note, inv.frequency, inv.phase, inv.duration, inv.rate, inv.outCanonical, inv.outFinite, commands⟩

theorem Inv.raise {s : State} (inv : Inv s) (r : RefusalReason) : Inv (s.raise r) :=
  ⟨inv.note, inv.frequency, inv.phase, inv.duration, inv.rate, inv.outCanonical, inv.outFinite, inv.commands⟩

theorem Inv.setSampleRate {s : State} (inv : Inv s) {rate : B32} (legal : rateLegal rate = true) :
    Inv (s.setSampleRate rate.toB64) :=
  { inv with rate := fun _ h => ⟨rate, legal, (Option.some.inj h).symm⟩ }

/-- R105, R121, R122: a message ends the held note, or starts a note at its own frequency with the duration 0.0. -/
theorem Inv.eventEffect {s : State} (inv : Inv s) {e : Event} (legal : e.status = 0x90#8 → e.data1.toNat ≤ 127) :
    Inv (eventEffect s e) := by
  unfold Machine.eventEffect
  split_ifs with off held on
  · exact { inv with note := nofun }
  · exact inv
  · exact { inv with
      note := fun n h => Option.some.inj h ▸ ⟨legal on, rfl⟩
      frequency := .inr ⟨e.data1, legal on, rfl⟩
      duration := ⟨0, Nat.zero_le _, zero_eq_ofInt⟩ }
  · exact inv

theorem Inv.foldl_eventEffect {events : List Event} {s : State} (inv : Inv s)
    (legal : ∀ e ∈ events, e.status = 0x90#8 → e.data1.toNat ≤ 127) : Inv (events.foldl Machine.eventEffect s) := by
  induction events generalizing s with
  | nil => exact inv
  | cons e es ih =>
    obtain ⟨legalHead, legalTail⟩ := List.forall_mem_cons.1 legal
    exact ih (inv.eventEffect legalHead) legalTail

/-- R148: a broadcast of a finite value keeps every value of OUT finite. -/
theorem broadcast_finite {o : OutBuffer} (finite : ∀ a ∈ o, a.value.isFinite = true) {v : B32} (hv : v.isFinite = true)
    (n k : Nat) : ∀ a ∈ o.broadcast n v k, a.value.isFinite = true := by
  intro a ha
  rcases OutBuffer.mem_broadcast ha with new | old
  · rw [new]
    exact hv
  · exact finite a old

theorem Inv.renderIdle {s : State} (inv : Inv s) (nc n : Nat) : Inv (renderIdle nc s n) := by
  induction n with
  | zero => exact inv
  | succ n ih =>
    exact { ih with
      outCanonical := OutBuffer.broadcast_wf ih.outCanonical n B32.zero nc
      outFinite := broadcast_finite ih.outFinite (by decide) n nc }

/-- R103, R144, R148: one sample keeps the phase legal, counts on, and writes a finite value. -/
theorem Inv.renderSample {s : State} (inv : Inv s) {sr : B64} (rate : s.sampleRate = some sr) (nc n : Nat) :
    Inv (renderSample sr nc n s) := by
  obtain ⟨r, legal, rfl⟩ := inv.rate sr rate
  obtain ⟨frequency, phase, currentNote, duration, sampleRate, -, -, out, -, inbox⟩ :=
    renderSample_fields r.toB64 nc n s
  obtain ⟨k, bound, counted⟩ := inv.duration
  have bounded := inv.freqBounded
  have finite := nextSample_finite inv.phase legal bounded.1.1
  exact {
    note := by rw [currentNote, frequency]; exact inv.note
    frequency := by rw [frequency]; exact inv.frequency
    phase := by rw [phase]; exact phaseAdvance_legal inv.phase bounded legal
    duration := ⟨min (k + 1) (2 ^ 53), Nat.min_le_right _ _, by rw [duration, counted, duration_add_one bound]⟩
    rate := by rw [sampleRate]; exact inv.rate
    outCanonical := by rw [out]; exact OutBuffer.broadcast_wf inv.outCanonical n _ nc
    outFinite := by rw [out]; exact broadcast_finite inv.outFinite finite n nc
    commands := by rw [inbox]; exact inv.commands }

theorem Inv.renderSounding {s : State} (inv : Inv s) {sr : B64} (rate : s.sampleRate = some sr) (nc n : Nat) :
    Inv (renderSounding sr nc s n) := by
  induction n with
  | zero => exact inv
  | succ n ih =>
    obtain ⟨-, -, sampleRate, -⟩ := renderSounding_frame sr nc s n
    exact ih.renderSample (sampleRate.trans rate) nc n

/-- Every host command keeps the invariant, refused or not. -/
theorem Inv.exec_command {s t : State} (inv : Inv s) {tag : Byte} {operands : List Nat} {i : Instr}
    (command : decode (.command tag operands) = .ok i) (run : exec i s = .next t) : Inv t := by
  have does := exec_does run
  rcases decode_command command with ⟨rate, rfl⟩ | ⟨events, rfl⟩ | ⟨ns, nc, rfl⟩
  · cases does with
    | setSampleRate _ legal => exact inv.setSampleRate legal
    | srInvalid => exact inv.raise _
    | noRate _ needs => simp [NeedsRate] at needs
  · cases does with
    | handleEvents _ legal => exact inv.foldl_eventEffect legal
    | handleEventsStops first _ _ legal => exact (inv.foldl_eventEffect legal).raise _
    | noRate _ needs => simp [NeedsRate] at needs
  · cases does with
    | renderIdle => exact inv.renderIdle nc ns
    | renderSounding _ _ _ sr _ rate => exact inv.renderSounding rate nc ns
    | srUnset => exact inv.raise _
    | noRate _ needs => simp [NeedsRate] at needs

/-- Only commands are taken from the inbox, and the state without the oldest one meets the invariant. -/
theorem Inv.taken {s : State} (inv : Inv s) {p : Packet} {rest : List Packet} (pending : s.inbox = p :: rest) :
    p.isCommand = true ∧ Inv (s.setInbox rest) := by
  have commands := inv.commands
  rw [pending, List.forall_mem_cons] at commands
  exact ⟨commands.1, inv.setInbox commands.2⟩

/-- Settles O56: a step waits, refuses an unknown tag, or runs one of the three host commands on the state from which it
is taken. -/
theorem stepKeepsTheInvariant : Obligations.StepKeepsTheInvariant := by
  unfold Obligations.StepKeepsTheInvariant
  intro s t inv h
  obtain ⟨-, ⟨-, rfl⟩ | ⟨tag, operands, rest, pending, rfl⟩ | ⟨p, rest, i, pending, ok, run⟩⟩ := step_cases h
  · exact inv
  · exact (inv.taken pending).2.raise _
  · obtain ⟨command, others⟩ := inv.taken pending
    cases p with
    | command tag operands => exact others.exec_command ok run
    | event => cases command
    | invoke => cases command

/-- The host issues commands only (R63). -/
theorem Inv.issue {s : State} (inv : Inv s) {p : Packet} (command : p.isCommand = true) : Inv (s.issue p) :=
  inv.setInbox fun q hq => by
    rcases List.mem_append.1 hq with old | new
    · exact inv.commands q old
    · rw [List.mem_singleton.1 new]
      exact command

/-- Settles O57: by how the state is reached. -/
theorem reachableStatesMeetTheInvariant : Obligations.ReachableStatesMeetTheInvariant := by
  unfold Obligations.ReachableStatesMeetTheInvariant
  intro s reachable
  induction reachable with
  | reset => exact resetMeetsInvariant
  | issue p _ command inv => exact inv.issue command
  | step _ run inv => exact stepKeepsTheInvariant _ _ inv run

/-- R148: a slot that reads as some value holds one of OUT's values. -/
theorem OutBuffer.read_finite {o : OutBuffer} (finite : ∀ a ∈ o, a.value.isFinite = true) {c n : Nat} {v : B32}
    (h : o.read c n = some v) : v.isFinite = true := by
  obtain ⟨a, found, rfl⟩ := Option.map_eq_some_iff.1 h
  exact finite a (List.mem_of_find?_eq_some found)

/-- Settles O25: the block is written whole, and the state it leaves meets the invariant. -/
theorem renderedSamplesAreFinite : Obligations.RenderedSamplesAreFinite := by
  unfold Obligations.RenderedSamplesAreFinite
  intro ns nc s inv ready
  rcases idle_or_sounding ready with idle | ⟨note, sr, sounding, rate⟩
  · refine ⟨_, exec_render_idle idle ns nc, fun c n hc hn => ?_⟩
    have written := renderIdle_read nc s ns c n
    rw [if_pos ⟨hc, hn⟩] at written
    exact ⟨_, written, OutBuffer.read_finite (inv.renderIdle nc ns).outFinite written⟩
  · refine ⟨_, exec_render_sounding sounding rate ns nc, fun c n hc hn => ?_⟩
    have written := renderSounding_read sr nc s ns c n
    rw [if_pos ⟨hc, hn⟩] at written
    exact ⟨_, written, OutBuffer.read_finite (inv.renderSounding rate nc ns).outFinite written⟩

end Sys2Proof.Machine

/-!
PROOF. Rounding (00_scope.md section 4): `roundMag` takes one of the two magnitudes around the exact ratio, the nearer
one and of two equally near the even one; each arithmetic operation is its exact result rounded so, with infinity at the
top.
-/

namespace Sys2Proof

/-! ### The two magnitudes around a ratio -/

/-- A significand of up to `p + 1` bits (or the next power of two) under the shift `k`, which is 0 for a subnormal. -/
theorem magUnits_significand {p k n : Nat} (top : n ≤ 2 ^ (p + 1)) (low : k = 0 ∨ 2 ^ p ≤ n) :
    magUnits p (k * 2 ^ p + n) = n * 2 ^ k := by
  have half : 2 ^ (p + 1) = 2 ^ p + 2 ^ p := by ring
  rcases Nat.lt_or_eq_of_le top with below | rfl
  · rcases low with rfl | low
    · rw [Nat.zero_mul, Nat.zero_add, magUnits_small below, pow_zero, Nat.mul_one]
    · have normal := magUnits_normal (p := p) (e := k) (f := n - 2 ^ p) (by omega)
      rw [show k * 2 ^ p + n = (k + 1) * 2 ^ p + (n - 2 ^ p) by rw [Nat.add_mul]; omega, normal,
        Nat.add_sub_cancel' low]
  · have normal := magUnits_normal (p := p) (e := k + 1) (f := 0) (by positivity)
    rw [show k * 2 ^ p + 2 ^ (p + 1) = (k + 1 + 1) * 2 ^ p + 0 by ring, normal]
    ring

/-- With a shift the quotient has all its bits, and without one it may have any. -/
theorem roundShift_low (p num den : Nat) :
    roundShift p num den = 0 ∨ 2 ^ p ≤ num / (den * 2 ^ roundShift p num den) :=
  (Nat.eq_zero_or_pos _).imp_right le_div_of_shift

/-- The ratio lies between the values of two magnitudes `t` and `t + 1` (scaled by the denominator, so that they are
integers); it is rounded up past the middle of the two, and at the middle from an odd `t`. -/
theorem roundMag_between {p : Nat} (hp : 0 < p) (num : Nat) {den : Nat} (pos : 0 < den) :
    ∃ t lo hi, magUnits p t * den = lo ∧ magUnits p (t + 1) * den = hi ∧ lo ≤ num ∧ num < hi ∧
      (roundMag p num den = t ∧ (2 * num < lo + hi ∨ 2 * num = lo + hi ∧ t % 2 = 0) ∨
        roundMag p num den = t + 1 ∧ (lo + hi < 2 * num ∨ lo + hi = 2 * num ∧ t % 2 = 1)) := by
  have below := div_lt_of_shift p num den
  have low := roundShift_low p num den
  have divisor : 0 < den * 2 ^ roundShift p num den := by positivity
  have round := roundMag_eq p num den
  generalize roundShift p num den = k at *
  have lower : magUnits p (k * 2 ^ p + num / (den * 2 ^ k)) * den = num / (den * 2 ^ k) * (den * 2 ^ k) := by
    rw [magUnits_significand below.le low]
    ring
  have low' : k = 0 ∨ 2 ^ p ≤ num / (den * 2 ^ k) + 1 := low.imp_right Nat.le_succ_of_le
  have upper : magUnits p (k * 2 ^ p + num / (den * 2 ^ k) + 1) * den = (num / (den * 2 ^ k) + 1) * (den * 2 ^ k) := by
    rw [Nat.add_assoc, magUnits_significand (n := num / (den * 2 ^ k) + 1) below low']
    ring
  have parity : (k * 2 ^ p + num / (den * 2 ^ k)) % 2 = num / (den * 2 ^ k) % 2 := by
    obtain ⟨j, rfl⟩ := Nat.exists_eq_succ_of_ne_zero hp.ne'
    rw [pow_succ, ← Nat.mul_assoc, Nat.add_comm, Nat.add_mul_mod_self_right]
  refine ⟨_, _, _, lower, upper, ?_⟩
  generalize den * 2 ^ k = d at *
  have remainder := Nat.mod_lt num divisor
  have division := Nat.div_add_mod' num d
  have next : (num / d + 1) * d = num / d * d + d := Nat.succ_mul _ _
  unfold roundNat at round
  by_cases up : roundsUp (num / d) (num % d) d = true
  · rw [if_pos up] at round
    rw [roundsUp_iff] at up
    omega
  · rw [if_neg up] at round
    rw [roundsUp_iff] at up
    omega

/-- The values of all magnitudes against those of `t` and `t + 1`. -/
theorem magUnits_around (p m t : Nat) {den : Nat} (pos : 0 < den) :
    (m < t ∧ magUnits p m * den < magUnits p t * den) ∨ m = t ∨ m = t + 1 ∨
      (t + 1 < m ∧ magUnits p (t + 1) * den < magUnits p m * den) := by
  have scaled {a b : Nat} (h : a < b) : magUnits p a * den < magUnits p b * den :=
    Nat.mul_lt_mul_of_pos_right (magUnits_lt h) pos
  rcases Nat.lt_trichotomy m t with below | same | above
  · exact .inl ⟨below, scaled below⟩
  · exact .inr (.inl same)
  · rcases Nat.lt_or_eq_of_le above with above | next
    · exact .inr (.inr (.inr ⟨above, scaled above⟩))
    · exact .inr (.inr (.inl next.symm))

/-- Settles O58: any other magnitude is farther from the ratio than the one of the two around it on its own side. -/
theorem roundingIsToNearestTiesToEven : Obligations.RoundingIsToNearestTiesToEven := by
  unfold Obligations.RoundingIsToNearestTiesToEven
  intro p num den m hp pos
  obtain ⟨t, lo, hi, rfl, rfl, low, high, round⟩ := roundMag_between hp num pos
  rcases round with ⟨down, side⟩ | ⟨up, side⟩
  · rw [down]
    rcases magUnits_around p m t pos with ⟨-, below⟩ | rfl | rfl | ⟨-, above⟩ <;> omega
  · rw [up]
    rcases magUnits_around p m t pos with ⟨-, below⟩ | rfl | rfl | ⟨-, above⟩ <;> omega

/-! ### Rounding with infinity at the top -/

/-- From the middle between an odd magnitude and the next one on, the ratio rounds to that next one or above it. -/
theorem lt_roundMag_iff {p top : Nat} (hp : 0 < p) (odd : top % 2 = 1) (num : Nat) {den : Nat} (pos : 0 < den) :
    top < roundMag p num den ↔ (magUnits p top + magUnits p (top + 1)) * den ≤ 2 * num := by
  obtain ⟨t, lo, hi, rfl, rfl, low, high, round⟩ := roundMag_between hp num pos
  have next : magUnits p top * den < magUnits p (top + 1) * den :=
    Nat.mul_lt_mul_of_pos_right (magUnits_lt (Nat.lt_succ_self top)) pos
  rw [Nat.add_mul]
  rcases Nat.lt_trichotomy top t with below | rfl | above
  · have order : magUnits p (top + 1) * den ≤ magUnits p t * den :=
      Nat.mul_le_mul_right den (magUnits_le_iff.2 below)
    omega
  · omega
  · have order : magUnits p (t + 1) * den ≤ magUnits p top * den :=
      Nat.mul_le_mul_right den (magUnits_le_iff.2 above)
    omega

/-- A rounded magnitude cut off at infinity is rounded once, where the largest finite magnitude is odd. -/
theorem roundedOnce_min {p top : Nat} (hp : 0 < p) (odd : top % 2 = 1) {neg : Bool} {num : Int} {n den : Nat}
    (pos : 0 < den) (abs_eq : num.natAbs = n) (sign : num ≠ 0 → neg = decide (num < 0)) :
    RoundedOnce p (top + 1) neg (min (roundMag p n den) (top + 1)) num den := by
  subst abs_eq
  have nearest := fun m => roundingIsToNearestTiesToEven p num.natAbs den m hp pos
  exact {
    sign := sign
    bound := Nat.min_le_right _ _
    overflow := min_eq_right_iff.trans (lt_roundMag_iff hp odd num.natAbs pos)
    nearest := fun finite m _ => by
      rw [Nat.min_eq_left (by omega)]
      exact (nearest m).1
    even := fun finite m _ other tie => by
      rw [Nat.min_eq_left (by omega)] at other tie ⊢
      exact (nearest m).2 other tie }

/-- The two formats' infinities, each above an odd magnitude. -/
theorem B64.infMag_eq : B64.infMag = 0x7FEFFFFFFFFFFFFF + 1 := rfl

theorem B32.infMag_eq : B32.infMag = 0x7F7FFFFF + 1 := rfl

theorem B64.ofRatio_roundsTo {neg : Bool} {num : Int} {n den : Nat} (pos : 0 < den) (abs_eq : num.natAbs = n)
    (sign : num ≠ 0 → neg = decide (num < 0)) : (B64.ofRatio neg n den).RoundsTo num den := by
  unfold B64.RoundsTo
  rw [B64.ofRatio_neg, B64.ofRatio_mag, B64.infMag_eq]
  exact roundedOnce_min (by decide) (by decide) pos abs_eq sign

theorem B32.ofRatio_roundsTo {neg : Bool} {num : Int} {n den : Nat} (pos : 0 < den) (abs_eq : num.natAbs = n)
    (sign : num ≠ 0 → neg = decide (num < 0)) : (B32.ofRatio neg n den).RoundsTo num den := by
  obtain ⟨hneg, hmag⟩ := B32.ofRatio_neg_mag neg n den
  unfold B32.RoundsTo
  rw [hneg, hmag, B32.infMag_eq]
  exact roundedOnce_min (by decide) (by decide) pos abs_eq sign

theorem B64.ofUnits_roundsTo (zeroNeg : Bool) (v : Int) : (B64.ofUnits zeroNeg v).RoundsTo v 1 := by
  by_cases zero : v = 0
  · subst zero
    unfold B64.RoundsTo
    rw [B64.ofUnits_mag, B64.infMag_eq]
    exact roundedOnce_min (by decide) (by decide) (by decide) rfl fun h => absurd rfl h
  · rw [B64.ofUnits, if_neg zero]
    exact B64.ofRatio_roundsTo (by decide) rfl fun _ => rfl

/-! ### Signs and values of finite operands -/

theorem B64.value_ne_zero_iff (x : B64) : x.value ≠ 0 ↔ 0 < x.mag := by
  rw [← Int.natAbs_pos, B64.value_natAbs, B64.units]
  exact ⟨fun h => Nat.pos_of_ne_zero fun zero => by simp [zero] at h, magUnits_pos⟩

/-- The sign bits differ exactly where a result with the sign of the product is negative. -/
theorem B64.neg_bne_eq {a b : B64} {num : Int} (product : num.sign = (a.value * b.value).sign) (h : num ≠ 0) :
    (a.neg != b.neg) = decide (num < 0) := by
  have negative : num < 0 ↔ 0 < a.value ∧ b.value < 0 ∨ a.value < 0 ∧ 0 < b.value := by
    rw [← Int.sign_eq_neg_one_iff_neg, product, Int.sign_eq_neg_one_iff_neg, mul_neg_iff]
  have notZero : a.value * b.value ≠ 0 := fun zero =>
    h (by rwa [zero, Int.sign_zero, Int.sign_eq_zero_iff_zero] at product)
  obtain ⟨ha, hb⟩ := mul_ne_zero_iff.1 notZero
  rw [B64.neg_of_value_ne_zero ha, B64.neg_of_value_ne_zero hb, Bool.eq_iff_iff, decide_eq_true_eq, negative,
    bne_iff_ne, ne_eq, decide_eq_decide]
  omega

section
variable {a b : B64} (ha : a.isFinite = true) (hb : b.isFinite = true)
include ha

theorem B64.toB32_roundsTo : a.toB32.RoundsTo a.value B32.unitInB64 := by
  rw [B64.toB32_finite ha]
  exact B32.ofRatio_roundsTo (by unfold B32.unitInB64; positivity) a.value_natAbs B64.neg_of_value_ne_zero

include hb

theorem B64.add_roundsTo : (B64.add a b).RoundsTo (a.value + b.value) 1 := by
  rw [B64.add, B64.addAs_finite .add ha hb]
  exact B64.ofUnits_roundsTo _ _

theorem B64.sub_roundsTo : (B64.sub a b).RoundsTo (a.value - b.value) 1 := by
  rw [B64.sub, B64.addAs_finite .sub ha (B64.negate_finite hb), B64.negate_value, ← Int.sub_eq_add_neg]
  exact B64.ofUnits_roundsTo _ _

theorem B64.mul_roundsTo : (B64.mul a b).RoundsTo (a.value * b.value) B64.one := by
  rw [B64.mul_finite ha hb]
  refine B64.ofRatio_roundsTo B64.one_pos ?_ (B64.neg_bne_eq rfl)
  rw [Int.natAbs_mul, B64.value_natAbs, B64.value_natAbs]

theorem B64.div_roundsTo (notZero : 0 < b.mag) :
    (B64.div a b).RoundsTo (a.value * B64.one * b.value.sign) b.units := by
  have value : b.value ≠ 0 := b.value_ne_zero_iff.2 notZero
  rw [B64.div_finite ha hb notZero]
  have one : (B64.one : Int).sign = 1 := Int.sign_eq_one_of_pos (by exact_mod_cast B64.one_pos)
  refine B64.ofRatio_roundsTo (magUnits_pos notZero) ?_ (B64.neg_bne_eq ?_)
  · rw [Int.natAbs_mul, Int.natAbs_mul, B64.value_natAbs, Int.natAbs_sign_of_ne_zero value, Nat.mul_one,
      Int.natAbs_natCast]
  · rw [Int.sign_mul, Int.sign_mul, Int.sign_mul, one, Int.mul_one, Int.sign_sign]

end

/-! ### floor -/

theorem B64.floorInt_eq (x : B64) : x.floorInt = x.value / B64.one :=
  Int.fdiv_eq_ediv_of_nonneg _ (Int.natCast_nonneg _)

/-- A number of units that is a magnitude's own, with a sign, is exact. -/
theorem B64.ofUnits_value (zeroNeg : Bool) {v : Int} {m : Nat} (finite : m < B64.infMag)
    (own : magUnits 52 m = v.natAbs) :
    (B64.ofUnits zeroNeg v).isFinite = true ∧ (B64.ofUnits zeroNeg v).value = v := by
  have mag : (B64.ofUnits zeroNeg v).mag = m := by
    have round := roundMag_exact (p := 52) (m := m) (den := 1) (by decide)
    rw [B64.ofUnits_mag, ← own, ← Nat.mul_one (magUnits 52 m), round, Nat.min_eq_left finite.le]
  have units : (B64.ofUnits zeroNeg v).units = v.natAbs := by rw [B64.units, mag, own]
  refine ⟨(B64.isFinite_iff _).2 (by rwa [mag]), ?_⟩
  by_cases zero : v = 0
  · rw [B64.value, units, zero]
    simp
  · have sign : (B64.ofUnits zeroNeg v).neg = decide (v < 0) := by rw [B64.ofUnits, if_neg zero, B64.ofRatio_neg]
    rw [B64.value, units, sign]
    split_ifs with negative <;> simp only [decide_eq_true_eq] at negative <;> omega

/-- The floor of a finite value, in units, is the value of a finite magnitude: that of the operand where it is a whole
number already, and otherwise one of at most 53 bits. -/
theorem B64.exists_floorInt_mag {x : B64} (hx : x.isFinite = true) :
    ∃ m, m < B64.infMag ∧ magUnits 52 m = (x.floorInt * B64.one).natAbs := by
  obtain ⟨a, j, ha, hu, -⟩ := magUnits_form 52 x.mag
  have abs : x.value.natAbs = a * 2 ^ j := x.value_natAbs.trans hu
  rw [B64.floorInt_eq]
  rcases Nat.le_total j 1074 with small | large
  · obtain ⟨c, hc⟩ : ((2 ^ j : Nat) : Int) ∣ x.value := Int.natCast_dvd.2 ⟨a, by rw [abs, Nat.mul_comm]⟩
    have bits : c.natAbs = a := by
      rw [hc, Int.natAbs_mul, Int.natAbs_natCast, Nat.mul_comm] at abs
      exact Nat.eq_of_mul_eq_mul_right (by positivity) abs
    have quotient : x.value / B64.one = c / ((2 ^ (1074 - j) : Nat) : Int) := by
      have one : B64.one = 2 ^ j * 2 ^ (1074 - j) := by rw [B64.one, ← pow_add, Nat.add_sub_cancel' small]
      rw [hc, one, Nat.cast_mul, Int.mul_ediv_mul_of_pos _ _ (by positivity)]
    have bound : (x.value / B64.one).natAbs < 2 ^ 53 := by
      rw [quotient]
      exact lt_of_le_of_lt (Int.natAbs_ediv_le_natAbs _ _) (bits.trans_lt ha)
    obtain ⟨m, hm⟩ := exists_mag (p := 52) 1074 bound
    have le : magUnits 52 m ≤ magUnits 52 (B64.powMag 53) := by
      rw [hm, B64.magUnits_powMag, B64.one]
      exact Nat.mul_le_mul_right _ bound.le
    refine ⟨m, lt_of_le_of_lt (magUnits_le_iff.1 le) (B64.powMag_lt_infMag (by decide)), ?_⟩
    rw [hm, Int.natAbs_mul, Int.natAbs_natCast, B64.one]
  · have whole : (B64.one : Int) ∣ x.value := by
      refine Int.natCast_dvd.2 ?_
      rw [abs]
      exact (pow_dvd_pow 2 large).mul_left a
    refine ⟨x.mag, (B64.isFinite_iff x).1 hx, ?_⟩
    rw [Int.ediv_mul_cancel whole, B64.value_natAbs]
    rfl

theorem B64.floor_value {x : B64} (hx : x.isFinite = true) :
    (B64.floor x).isFinite = true ∧ (B64.floor x).value = x.value / B64.one * B64.one := by
  obtain ⟨m, finite, own⟩ := B64.exists_floorInt_mag hx
  rw [B64.floor_finite hx, ← B64.floorInt_eq]
  exact B64.ofUnits_value x.neg finite own

/-! ### Integers -/

theorem B64.ofInt_roundsTo (k : Int) : (B64.ofInt k).RoundsTo (k * B64.one) 1 := by
  have one : (0 : Int) < B64.one := by exact_mod_cast B64.one_pos
  refine B64.ofRatio_roundsTo (by decide) ?_ fun _ => ?_
  · rw [Int.natAbs_mul, Int.natAbs_natCast]
  · rw [decide_eq_decide, mul_neg_iff]
    omega

/-- Settles O59: each operation on finite operands is its exact ratio, rounded and cut off at infinity. -/
theorem arithmeticRoundsOnce : Obligations.ArithmeticRoundsOnce := by
  unfold Obligations.ArithmeticRoundsOnce
  refine ⟨fun a b ha hb => ?_, B64.ofInt_roundsTo⟩
  obtain ⟨floorFinite, floorValue⟩ := B64.floor_value ha
  exact ⟨B64.add_roundsTo ha hb, B64.sub_roundsTo ha hb, B64.mul_roundsTo ha hb, B64.div_roundsTo ha hb, floorFinite,
    floorValue, B64.toB32_roundsTo ha⟩

end Sys2Proof
